-- ==== Sys2Proof/Word.lean ====
section
/-! DEFINITION. The machine's value types.

R7 (00_scope.md): a word is "an unsigned 16-bit integer, the VM's only value type". The console channel
carries bytes (R170, R172, R177, 49_io.md). -/

namespace Sys2Proof

/-- A word: 16 bits, unsigned (R7, 00_scope.md). -/
abbrev Word := BitVec 16

/-- A byte of the console channel or of the image file (R172, R177, 49_io.md; R41, 20_memory.md). -/
abbrev Byte := BitVec 8

/-- The index of a general register, 0 to 7 (R10, 10_state.md). -/
abbrev Reg := Fin 8

end Sys2Proof
end

