-- ==== Sys2Proof/Config.lean ====
section
/-! DEFINITION. The constants of the machine.

R5 (00_scope.md): "The source fixes every size of the machine; none is left to the implementation." Nothing
here is a free value: where the source is silent the spec's numbered rules decide (92_eei_decisions.md). -/

namespace Sys2Proof.Config

/-- `MEM_WORDS`: the words of Memory, at addresses 0 to 32767 (R5; R40, 20_memory.md). -/
@[simp] abbrev memWords : Nat := 32768

/-- `STACK_CAP`: the greatest depth of the Operand Stack (R5; R14, 10_state.md). -/
@[simp] abbrev stackCap : Nat := 32768

/-- `NOPS`: the number of opcodes, values 0 to 21 (R5; R69, 30_encoding.md). -/
@[simp] abbrev nops : Nat := 22

/-- `MODULUS`: the modulus of `add` and `mult` (R5; R133, 45_arith.md). -/
@[simp] abbrev modulus : Nat := 32768

/-- `REG_BASE`: the operand word that denotes register 0 (R5; R63, 30_encoding.md). -/
@[simp] abbrev regBase : Nat := 32768

/-- `REG_TOP`: the operand word that denotes register 7 (R5; R63, 30_encoding.md). -/
@[simp] abbrev regTop : Nat := 32775

/-- `MASK15`: the mask of `not`, `and`, `or` (R5; R143, 46_logic.md). -/
@[simp] abbrev mask15 : Word := 0x7FFF#16

/-- `PC_RESET`: the program counter when execution begins (R5; R25, 10_state.md; R221, 70_reset_and_hazards.md). -/
@[simp] abbrev pcReset : Word := 0#16

/-- The code of the line terminator (R177, 49_io.md). The core never looks at it; only the splitting of `INPUT`
into lines (Machine/Boot.lean) uses it. PRESUMED: the number comes from outside the source (K1,
93_implementation_defined.md; log entry 7). Unsafe only for a claim about when a line becomes available. -/
def newline : Byte := 10#8

end Sys2Proof.Config
end

