-- ==== Sys2Proof/Machine/Alu.lean ====
section
/-! DEFINITION. The results of the arithmetic and bitwise instructions: exact on natural numbers, narrowed where the rule
says so (R7, 00_scope.md; R133, 45_arith.md; R143, 46_logic.md). -/

namespace Sys2Proof.Machine

/-- `(vb + vc) mod 32768` (R130, 45_arith.md). -/
def addWord (vb vc : Word) : Word := BitVec.ofNat 16 ((vb.toNat + vc.toNat) % Config.modulus)

/-- `(vb * vc) mod 32768`, the product exact before the reduction (R131, 45_arith.md). -/
def multWord (vb vc : Word) : Word := BitVec.ofNat 16 ((vb.toNat * vc.toNat) % Config.modulus)

/-- `vb mod vc`, unsigned, not reduced any further, for `vc` not 0 (R132, 45_arith.md). -/
def modWord (vb vc : Word) : Word := BitVec.ofNat 16 (vb.toNat % vc.toNat)

/-- `(vb AND vc) AND 0x7FFF` (R140, 46_logic.md; bit 15 by the spec's decision D4, log entry 15). -/
def andWord (vb vc : Word) : Word := (vb &&& vc) &&& Config.mask15

/-- `(vb OR vc) AND 0x7FFF` (R141, 46_logic.md; bit 15 by the spec's decision D4, log entry 15). -/
def orWord (vb vc : Word) : Word := (vb ||| vc) &&& Config.mask15

/-- `NOT16(vb) AND 0x7FFF` (R142, 46_logic.md). -/
def notWord (vb : Word) : Word := ~~~vb &&& Config.mask15

/-- `v AND 0xFF` as a byte: bits 7 to 0 (R170, 49_io.md). -/
def lowByte (v : Word) : Byte := BitVec.ofNat 8 (v.toNat % 256)

/-- `zext_16(c)`: bits 15 to 8 zero (R171, 49_io.md; the spec's decision D11, log entry 18). -/
def zext16 (c : Byte) : Word := c.setWidth 16

end Sys2Proof.Machine
end

