-- ==== Sys2Proof/Machine/State.lean ====
section
/-! DEFINITION. The state of the machine, as plain data: every piece of state of 10_state.md, and its reset values. -/

namespace Sys2Proof.Machine

/-- The seven fault kinds of the machine (R185 to R192, 60_exceptions.md). Taking one is an ordinary NEXT state of
the model: it latches the fault record and enters Faulted (R195). So no step ever answers the host's `.fault` with
one of these (log entry 2, safe): the type names the kinds, and `FaultRecord.fkind` holds one. -/
inductive Fault where
  /-- Code 1. Raised by the validate step when the opcode word is 22 to 65535 (R186). Safe: the spec's own fault. -/
  | malformedOpcode
  /-- Code 2. Raised by `ValOperand()` when the raw word is above 32775 (R187). Safe: the spec's own fault. -/
  | invalidOperand
  /-- Code 3. Raised by `RegOperand()` when the raw word is not 32768 to 32775 (R188). Safe: the spec's own fault. -/
  | invalidRegisterOperand
  /-- Code 4. Raised by `push` and `call` at depth 32768 (R189). Safe: the spec's own fault. -/
  | stackOverflow
  /-- Code 5. Raised by `pop` and `ret` at depth 0 (R190). Safe: the spec's own fault. -/
  | stackUnderflow
  /-- Code 6. Raised by `mod` when the divisor's value is 0 (R191; the spec's decision D1, log entry 13). Safe. -/
  | divisionByZero
  /-- Code 7. Raised by an opcode or operand fetch, `rmem` or `wmem` at an address above 32767 (R192; the spec's
  decisions D2 and D3, log entry 14). Safe. -/
  | addressOutOfRange
deriving DecidableEq, Repr

/-- Why the model would give an instruction no meaning. -/
inductive Refusal where
  /-- Raised by an arm of `exec` whose instruction has no meaning yet. Safe. No arm raises it: all 22 have theirs. -/
  | notModelled (mnemonic : String)
deriving DecidableEq, Repr

/-- The state of the Decode-Execute Loop (R17, 10_state.md; R85, 40_execute_loop.md). -/
inductive RunState where
  | running
  | halted
  | faulted
deriving DecidableEq, Repr

/-- The fault record (R18, 10_state.md). `fkind = none` is code 0, "no fault" (R193, 60_exceptions.md). -/
structure FaultRecord where
  fkind : Option Fault
  faddr : Word
  fop : Word
  fval : Word
deriving DecidableEq, Repr

/-- The record while there is no fault: all four fields 0 (R18, R25, 10_state.md). -/
def FaultRecord.clear : FaultRecord := { fkind := none, faddr := 0#16, fop := 0#16, fval := 0#16 }

/-- The two states of the Console Input Buffer (R173, 49_io.md). -/
inductive BufferMode where
  | empty
  | ready
deriving DecidableEq, Repr

/-- The console's input side: the Console Input Buffer (R173, R174, 49_io.md) and the lines of `INPUT` that the
external source has delivered and the buffer has not read yet, each with its terminator (R175; log entry 5). -/
structure Console where
  mode : BufferMode
  line : List Byte
  cursor : Nat
  source : List (List Byte)
deriving DecidableEq, Repr

/-- The buffer Empty, no line, cursor 0 (R25, 10_state.md), and nothing delivered. -/
def Console.reset : Console := { mode := .empty, line := [], cursor := 0, source := [] }

/-- Memory as cells in the canonical form of `Memory.wf` (Machine/Memory.lean): strictly rising keys, no zero byte,
so that equal Memories are equal lists. Word `n` of R40 (20_memory.md) is the two cells `2n` (bits 7 to 0) and
`2n + 1` (bits 15 to 8), the layout of the image file (R41). An unlisted cell reads as 0 (R25, R46).
DESIGN CHOICE: log entry 1. -/
abbrev Memory := List Host.Cell

/-- The complete state: the table at the head of 10_state.md. -/
structure State where
  /-- `x[0]` to `x[7]` (R10) -/
  regs : Vector Word 8
  /-- the program counter (R12) -/
  pc : Word
  /-- the Operand Stack, top first (R14) -/
  stack : List Word
  /-- `M[0..32767]` (R40, 20_memory.md) -/
  mem : Memory
  /-- R17 -/
  runstate : RunState
  /-- `fkind`, `faddr`, `fop`, `fval` (R18) -/
  faultRec : FaultRecord
  /-- R22 (a) -/
  console : Console
  /-- `OUTPUT`, the bytes written so far, oldest first (R22 (b); R172, 49_io.md) -/
  output : List Byte
deriving DecidableEq, Repr

/-- The state right after reset (R25, 10_state.md), with nothing loaded: the empty `IMAGE` and the empty `INPUT`
(log entry 12). Registers are 0 by the spec's decision D5 (log entry 9). -/
def State.reset : State where
  regs := Vector.replicate 8 0#16
  pc := Config.pcReset
  stack := []
  mem := []
  runstate := .running
  faultRec := FaultRecord.clear
  console := Console.reset
  output := []

end Sys2Proof.Machine
end

