-- ==== Sys2Proof/Machine/Console.lean ====
section
/-! DEFINITION. The Console Input Buffer (R173 to R176, 49_io.md). -/

namespace Sys2Proof.Machine

/-- The first delivered line that holds a character, split at its first byte, and the lines after it. A line without
any character has nothing to return and is passed over (log entry 6). -/
def Console.firstLine : List (List Byte) → Option (Byte × List Byte × List (List Byte))
  | [] => none
  | [] :: ls => Console.firstLine ls
  | (b :: l) :: ls => some (b, l, ls)

/-- The byte under the cursor of a Ready buffer, if the cursor is not at the end of the line (R174). -/
def Console.current (c : Console) : Option Byte :=
  match c.mode with
  | .ready => c.line[c.cursor]?
  | .empty => none

/-- What the buffer does for one `in` (R174, 49_io.md): "if Empty or cursor at end-of-line, block until one full line
is read from the external input source, store it, reset cursor to 0, transition to Ready. Then return the
character code at the cursor and advance the cursor by one." `none`: no line has been delivered, the `in` waits
(R175, R176). -/
def Console.next? (c : Console) : Option (Byte × Console) :=
  match c.current with
  | some b => some (b, { c with cursor := c.cursor + 1 })
  | none =>
    match Console.firstLine c.source with
    | some (b, l, ls) => some (b, { mode := .ready, line := b :: l, cursor := 1, source := ls })
    | none => none

/-- The unconsumed remainder of `INPUT`, as far as it has been delivered (R175, 49_io.md). -/
def Console.remainder (c : Console) : List Byte :=
  (match c.mode with
    | .ready => c.line.drop c.cursor
    | .empty => []) ++ c.source.flatten

/-- The buffer's own state is one R173 and R25 allow: no line while Empty, and the cursor within the line. -/
def Console.wf (c : Console) : Bool :=
  match c.mode with
  | .empty => decide (c.line = []) && decide (c.cursor = 0)
  | .ready => decide (c.cursor ≤ c.line.length)

end Sys2Proof.Machine
end

