-- ==== Sys2Proof/Machine/Memory.lean ====
section
/-! DEFINITION. Memory: its canonical form, and the word read and write every access is made of (R40, R43,
20_memory.md). The range check is in `memRead` and `memWrite` (Machine/Ops.lean). -/

namespace Sys2Proof.Machine

/-- Cells with keys at or above `lo`, strictly rising, below twice 32768, none of them 0. -/
def Memory.wfFrom (lo : Nat) : Memory → Bool
  | [] => true
  | (k, v) :: m => decide (lo ≤ k) && decide (k < 2 * Config.memWords) && decide (v ≠ 0#8) && Memory.wfFrom (k + 1) m

/-- The canonical form: the one list that stands for a Memory's contents. -/
def Memory.wf (m : Memory) : Bool := Memory.wfFrom 0 m

/-- One cell. An unlisted cell reads as 0 (R25, 10_state.md; R46, 20_memory.md). -/
def Memory.readByte : Memory → Nat → Byte
  | [], _ => 0#8
  | (k, v) :: m, a => if a = k then v else Memory.readByte m a

/-- Write one cell, keeping the canonical form: writing 0 takes the entry out. -/
def Memory.writeByte : Memory → Nat → Byte → Memory
  | [], a, v => if v = 0#8 then [] else [(a, v)]
  | (k, w) :: m, a, v =>
    if a < k then (if v = 0#8 then (k, w) :: m else (a, v) :: (k, w) :: m)
    else if a = k then (if v = 0#8 then m else (a, v) :: m)
    else (k, w) :: Memory.writeByte m a v

/-- `M[n]` (R40, 20_memory.md): bits 15 to 8 from cell `2n + 1`, bits 7 to 0 from cell `2n`. -/
def Memory.readWord (m : Memory) (n : Nat) : Word :=
  BitVec.ofNat 16 ((m.readByte (2 * n)).toNat + 256 * (m.readByte (2 * n + 1)).toNat)

/-- `M[n] <- v` (R40, 20_memory.md). -/
def Memory.writeWord (m : Memory) (n : Nat) (v : Word) : Memory :=
  (m.writeByte (2 * n) (BitVec.ofNat 8 v.toNat)).writeByte (2 * n + 1) (BitVec.ofNat 8 (v.toNat / 256))

/-- Write consecutive words from address `n` up. Words that would stand at 32768 or above have no place and are
dropped. -/
def Memory.writeWords (m : Memory) (n : Nat) : List Word → Memory
  | [] => m
  | v :: vs => if n < Config.memWords then (m.writeWord n v).writeWords (n + 1) vs else m

end Sys2Proof.Machine
end

