-- ==== Sys2Proof/Machine/Ops.lean ====
section
/-! DEFINITION. The primitives of R8 (00_scope.md) over the state, and the taking of a fault (R195, 60_exceptions.md).

A handler is a computation over State that may end early (`Stop`). The state an early end carries is the
state at that point of the rule's pseudocode: "nothing after it happens, and what came before it has happened and
stays" (R91, 40_execute_loop.md). -/

namespace Sys2Proof.Machine

/-- Read register `i`: the whole word (R10, 10_state.md). -/
def State.reg (s : State) (i : Reg) : Word := s.regs.get i

/-- `x[i] <- v`: the whole word (R10, 10_state.md). -/
def State.setReg (s : State) (i : Reg) (v : Word) : State := { s with regs := s.regs.set i v }

/-- `pc <- target`: "stores the 16-bit word `target` unchanged and checks nothing" (R12, 10_state.md). -/
def State.setPc (s : State) (target : Word) : State := { s with pc := target }

/-- Where a handler can end early. -/
inductive Stop where
  /-- `raise K(v)` (R8, 00_scope.md) -/
  | raised (k : Fault) (v : Word)
  /-- `InByte()` finds no byte: the step is not taken (R93, 40_execute_loop.md) -/
  | stalled
deriving DecidableEq, Repr

/-- A handler's body or a primitive: from a state, a result with the new state, or an early end. -/
abbrev Handler (α : Type) := EStateM Stop State α

/-- `raise K(v)`: ends the handler where it stands (R91, 40_execute_loop.md). -/
def raise {α : Type} (k : Fault) (v : Word) : Handler α := fun s => .error (.raised k v) s

/-- `x[i] <- v` as a step of a handler. -/
def writeReg (i : Reg) (v : Word) : Handler Unit := fun s => .ok () (s.setReg i v)

/-- Read `pc` in a handler. -/
def getPc : Handler Word := fun s => .ok s.pc s

/-- `pc <- target` as a step of a handler; no check (R12, 10_state.md; R123, 44_jump.md). -/
def jumpTo (target : Word) : Handler Unit := fun s => .ok () (s.setPc target)

/-- Whether Memory has a word at this address: 0 to 32767 (R46, 20_memory.md). -/
def inMemory (addr : Word) : Bool := decide (addr.toNat < Config.memWords)

/-- `MemRead(addr, 1)` (R44, 20_memory.md). -/
def memRead (addr : Word) : Handler Word := fun s =>
  if inMemory addr then .ok (s.mem.readWord addr.toNat) s else raise .addressOutOfRange addr s

/-- `MemWrite(addr, 1, v)` (R45, 20_memory.md). -/
def memWrite (addr v : Word) : Handler Unit := fun s =>
  if inMemory addr then .ok () { s with mem := s.mem.writeWord addr.toNat v } else raise .addressOutOfRange addr s

/-- `Push(v)` (R15, 10_state.md). -/
def push (v : Word) : Handler Unit := fun s =>
  if s.stack.length = Config.stackCap then raise .stackOverflow 0#16 s else .ok () { s with stack := v :: s.stack }

/-- `Pop()` (R16, 10_state.md). -/
def pop : Handler Word := fun s =>
  match s.stack with
  | [] => raise .stackUnderflow 0#16 s
  | v :: vs => .ok v { s with stack := vs }

/-- `OutByte(b)` (R172, 49_io.md): the sink always accepts and keeps the order of execution. -/
def outByte (b : Byte) : Handler Unit := fun s => .ok () { s with output := s.output ++ [b] }

/-- `InByte()` (R175, 49_io.md). -/
def inByte : Handler Byte := fun s =>
  match s.console.next? with
  | some (b, c) => .ok b { s with console := c }
  | none => .error .stalled s

/-- `runstate <- Halted` (R85, 40_execute_loop.md). -/
def enterHalted : Handler Unit := fun s => .ok () { s with runstate := .halted }

/-- TAKING A FAULT, the one shared operation (R195, 60_exceptions.md): the record latches the kind, the instruction
address `a0`, the opcode word and the offending value, and `runstate` becomes Faulted. "Nothing else is saved or
changed": `pc` stands where the fault met it (R196). There is no return from it (R197); reset is the only way out
(`applyReset`, Machine/Boot.lean). -/
def takeFault (k : Fault) (v a0 fop : Word) (s : State) : State :=
  { s with runstate := .faulted, faultRec := { fkind := some k, faddr := a0, fop := fop, fval := v } }

/-- How a handler's end ends the step that began in `s`, with `pc = a0`: a completed handler leaves the next state; a
fault is taken with `a0` and the opcode word `fop` (R195, 60_exceptions.md); a stall is no step, so the state, `pc = a0`
included, is the one the step began with (R93, 40_execute_loop.md; log entry 4). -/
def finish (fop : Word) (s : State) : EStateM.Result Stop State Unit → Host.Outcome State Fault Refusal
  | .ok _ t => .next t
  | .error (.raised k v) t => .next (takeFault k v s.pc fop t)
  | .error .stalled _ => .next s

/-- Run the handler of the opcode `fop` from the state at the start of a step, `pc = a0` (R86, R89,
40_execute_loop.md): the body starts at `pc = a0 + 1`. -/
def runHandler (fop : Word) (body : Handler Unit) (s : State) : Host.Outcome State Fault Refusal :=
  finish fop s (body (s.setPc (s.pc + 1#16)))

end Sys2Proof.Machine
end

