-- ==== Sys2Proof/Machine/Operands.lean ====
section
/-! DEFINITION. The Operand Resolver in its two modes (R63, R65 to R68, 30_encoding.md), and the operand phase of the
six instruction formats (R61; R90, 40_execute_loop.md). -/

namespace Sys2Proof.Machine

/-- The register a raw word refers to: 32768 to 32775 (R63, 30_encoding.md). -/
def registerRef (w : Word) : Option Reg :=
  if h : Config.regBase ≤ w.toNat ∧ w.toNat ≤ Config.regTop then
    some ⟨w.toNat - Config.regBase, by simp only [Config.regBase, Config.regTop] at h ⊢; omega⟩
  else none

/-- `resolveRegisterIndex` (R67, R68, 30_encoding.md): the register named is not read. -/
def resolveRegisterIndex (w : Word) : Option Reg := registerRef w

/-- `resolveValue` (R66, R68, 30_encoding.md): a literal is the word itself, a register reference yields the whole
content of the register, and resolution is not repeated. -/
def resolveValue (w : Word) (s : State) : Option Word :=
  if w.toNat < Config.regBase then some w else (registerRef w).map s.reg

/-- The fetch of an operand word (R87, 40_execute_loop.md): it raises AddressOutOfRange at an address above 32767,
`pc` then unchanged, and otherwise moves `pc` past the word. `w` is the word that stands there. -/
def fetchOperand (w : Word) : Handler Word := fun s =>
  if inMemory s.pc then .ok w (s.setPc (s.pc + 1#16)) else raise .addressOutOfRange s.pc s

/-- The resolver's value mode on a word already fetched (R66, R68, 30_encoding.md). -/
def getValue (w : Word) : Handler Word := fun s =>
  match resolveValue w s with
  | some v => .ok v s
  | none => raise .invalidOperand w s

/-- The resolver's index mode on a word already fetched (R67, R68, 30_encoding.md). -/
def getIndex (w : Word) : Handler Reg := fun s =>
  match resolveRegisterIndex w with
  | some i => .ok i s
  | none => raise .invalidRegisterOperand w s

/-- `ValOperand()` (R66, 30_encoding.md). -/
def valOperand (raw : Word) : Handler Word := do
  let w ← fetchOperand raw
  getValue w

/-- `RegOperand()` (R67, 30_encoding.md). -/
def regOperand (raw : Word) : Handler Reg := do
  let w ← fetchOperand raw
  getIndex w

/-- Format `R`: `a` a register operand (R61). -/
def formatR (a : Word) (body : Reg → Handler Unit) : Handler Unit := do
  let i ← regOperand a
  body i

/-- Format `V`: `a` a value operand (R61). -/
def formatV (a : Word) (body : Word → Handler Unit) : Handler Unit := do
  let va ← valOperand a
  body va

/-- Format `RV`: `a` a register operand, then `b` a value operand (R61, R90). -/
def formatRV (a b : Word) (body : Reg → Word → Handler Unit) : Handler Unit := do
  let i ← regOperand a
  let vb ← valOperand b
  body i vb

/-- Format `VV`: `a`, then `b`, value operands (R61, R90). -/
def formatVV (a b : Word) (body : Word → Word → Handler Unit) : Handler Unit := do
  let va ← valOperand a
  let vb ← valOperand b
  body va vb

/-- Format `RVV`: `a` a register operand, then `b` and `c` value operands (R61, R90). -/
def formatRVV (a b c : Word) (body : Reg → Word → Word → Handler Unit) : Handler Unit := do
  let i ← regOperand a
  let vb ← valOperand b
  let vc ← valOperand c
  body i vb vc

end Sys2Proof.Machine
end

