-- ==== Sys2Proof/Machine/Arith.lean ====
section
/-! DEFINITION. `add`, `mult` and `mod` (45_arith.md). -/

namespace Sys2Proof.Machine

/-- `add a, b, c`, opcode 9 (R130, 45_arith.md). -/
def execAdd (a b c : Word) (s : State) : Host.Outcome State Fault Refusal :=
  runHandler 9#16 (formatRVV a b c fun i vb vc => writeReg i (addWord vb vc)) s

/-- `mult a, b, c`, opcode 10 (R131, 45_arith.md). -/
def execMult (a b c : Word) (s : State) : Host.Outcome State Fault Refusal :=
  runHandler 10#16 (formatRVV a b c fun i vb vc => writeReg i (multWord vb vc)) s

/-- `mod a, b, c`, opcode 11: the divisor is tested after all three operands are resolved (R132, 45_arith.md; the
zero divisor by the spec's decision D1, log entry 13). -/
def execMod (a b c : Word) (s : State) : Host.Outcome State Fault Refusal :=
  runHandler 11#16 (formatRVV a b c fun i vb vc =>
    if vc = 0#16 then raise .divisionByZero 0#16 else writeReg i (modWord vb vc)) s

end Sys2Proof.Machine
end

