-- ==== Sys2Proof/Machine/CallRet.lean ====
section
/-! DEFINITION. `call` and `ret` (48_call_ret.md). The return address goes on the one Operand Stack; there is no link register. -/

namespace Sys2Proof.Machine

/-- `call a`, opcode 17: pushes the address after its operand, `a0 + 2`, then jumps (R160, 48_call_ret.md). -/
def execCall (a : Word) (s : State) : Host.Outcome State Fault Refusal :=
  runHandler 17#16 (formatV a fun t => do
    let ra ← getPc
    push ra
    jumpTo t) s

/-- `ret`, opcode 18: the top word, whatever put it there, becomes `pc` (R161, 48_call_ret.md). -/
def execRet (s : State) : Host.Outcome State Fault Refusal :=
  runHandler 18#16 (do
    let t ← pop
    jumpTo t) s

end Sys2Proof.Machine
end

