-- ==== Sys2Proof/Machine/Flags.lean ====
section
/-! DEFINITION. Truth values. The machine has no flags, condition codes or predicate registers (R19, 10_state.md): a
comparison writes the word 1 or 0, and a conditional jump tests a whole word against 0. -/

namespace Sys2Proof.Machine

/-- The word a comparison writes: 1 or 0 (R19, 10_state.md; R115, R116, 43_compare.md). -/
def truthWord (p : Bool) : Word := if p then 1#16 else 0#16

/-- `vb = vc` on whole 16-bit values (R115, 43_compare.md). -/
def eqWord (vb vc : Word) : Word := truthWord (decide (vb = vc))

/-- `vb > vc`, unsigned and strict, on whole 16-bit values (R116, 43_compare.md). -/
def gtWord (vb vc : Word) : Word := truthWord (decide (vb.toNat > vc.toNat))

/-- The condition of `jt` and `jf`: the whole value is not 0 (R121, R122, 44_jump.md). -/
def isTrue (v : Word) : Bool := decide (v ≠ 0#16)

end Sys2Proof.Machine
end

