-- ==== Sys2Proof/Machine/Compare.lean ====
section
/-! DEFINITION. `eq` and `gt` (43_compare.md). -/

namespace Sys2Proof.Machine

/-- `eq a, b, c`, opcode 4 (R115, 43_compare.md). -/
def execEq (a b c : Word) (s : State) : Host.Outcome State Fault Refusal :=
  runHandler 4#16 (formatRVV a b c fun i vb vc => writeReg i (eqWord vb vc)) s

/-- `gt a, b, c`, opcode 5 (R116, 43_compare.md). -/
def execGt (a b c : Word) (s : State) : Host.Outcome State Fault Refusal :=
  runHandler 5#16 (formatRVV a b c fun i vb vc => writeReg i (gtWord vb vc)) s

end Sys2Proof.Machine
end

