-- ==== Sys2Proof/Machine/Io.lean ====
section
/-! DEFINITION. `out` and `in` (49_io.md). -/

namespace Sys2Proof.Machine

/-- `out a`, opcode 19: one byte, the value's low 8 bits; it never waits (R170, 49_io.md). -/
def execOut (a : Word) (s : State) : Host.Outcome State Fault Refusal :=
  runHandler 19#16 (formatV a fun v => outByte (lowByte v)) s

/-- `in a`, opcode 20: the operand is checked before any wait; with no byte available the step leaves every piece of
state as it was, `pc = a0` included (R171, 49_io.md; R93, 40_execute_loop.md). -/
def execIn (a : Word) (s : State) : Host.Outcome State Fault Refusal :=
  runHandler 20#16 (formatR a fun i => do
    let c ← inByte
    writeReg i (zext16 c)) s

end Sys2Proof.Machine
end

