-- ==== Sys2Proof/Machine/Jump.lean ====
section
/-! DEFINITION. `jmp`, `jt` and `jf` (44_jump.md). Targets are absolute word addresses and are not checked here: a target
above 32767 faults at the next step's opcode fetch (R123). -/

namespace Sys2Proof.Machine

/-- `jmp a`, opcode 6 (R120, 44_jump.md). -/
def execJmp (a : Word) (s : State) : Host.Outcome State Fault Refusal :=
  runHandler 6#16 (formatV a fun t => jumpTo t) s

/-- `jt a, b`, opcode 7: both operands are resolved whether or not the jump is taken (R121, 44_jump.md). -/
def execJt (a b : Word) (s : State) : Host.Outcome State Fault Refusal :=
  runHandler 7#16 (formatVV a b fun va t => if isTrue va then jumpTo t else pure ()) s

/-- `jf a, b`, opcode 8: the complement of `jt` (R122, 44_jump.md). -/
def execJf (a b : Word) (s : State) : Host.Outcome State Fault Refusal :=
  runHandler 8#16 (formatVV a b fun va t => if isTrue va then pure () else jumpTo t) s

end Sys2Proof.Machine
end

