-- ==== Sys2Proof/Machine/Logic.lean ====
section
/-! DEFINITION. `and`, `or` and `not` (46_logic.md). -/

namespace Sys2Proof.Machine

/-- `and a, b, c`, opcode 12 (R140, 46_logic.md). -/
def execAnd (a b c : Word) (s : State) : Host.Outcome State Fault Refusal :=
  runHandler 12#16 (formatRVV a b c fun i vb vc => writeReg i (andWord vb vc)) s

/-- `or a, b, c`, opcode 13 (R141, 46_logic.md). -/
def execOr (a b c : Word) (s : State) : Host.Outcome State Fault Refusal :=
  runHandler 13#16 (formatRVV a b c fun i vb vc => writeReg i (orWord vb vc)) s

/-- `not a, b`, opcode 14 (R142, 46_logic.md). -/
def execNot (a b : Word) (s : State) : Host.Outcome State Fault Refusal :=
  runHandler 14#16 (formatRV a b fun i vb => writeReg i (notWord vb)) s

end Sys2Proof.Machine
end

