-- ==== Sys2Proof/Machine/MemoryOps.lean ====
section
/-! DEFINITION. `rmem` and `wmem`, the only load and the only store (47_memory_ops.md). The address is the resolved value of
one operand, with no displacement and no update of a register (R47, 20_memory.md). -/

namespace Sys2Proof.Machine

/-- `rmem a, b`, opcode 15 (R150, 47_memory_ops.md). -/
def execRmem (a b : Word) (s : State) : Host.Outcome State Fault Refusal :=
  runHandler 15#16 (formatRV a b fun i addr => do
    let v ← memRead addr
    writeReg i v) s

/-- `wmem a, b`, opcode 16: `a` is a value operand, the address (R151, 47_memory_ops.md). -/
def execWmem (a b : Word) (s : State) : Host.Outcome State Fault Refusal :=
  runHandler 16#16 (formatVV a b fun addr v => memWrite addr v) s

end Sys2Proof.Machine
end

