-- ==== Sys2Proof/Machine/SetStack.lean ====
section
/-! DEFINITION. `set`, `push` and `pop` (42_set_stack.md). -/

namespace Sys2Proof.Machine

/-- `set a, b`, opcode 1: the whole value is copied (R105, 42_set_stack.md). -/
def execSet (a b : Word) (s : State) : Host.Outcome State Fault Refusal :=
  runHandler 1#16 (formatRV a b fun i vb => writeReg i vb) s

/-- `push a`, opcode 2 (R106, 42_set_stack.md). -/
def execPush (a : Word) (s : State) : Host.Outcome State Fault Refusal :=
  runHandler 2#16 (formatV a fun va => push va) s

/-- `pop a`, opcode 3 (R107, 42_set_stack.md). -/
def execPop (a : Word) (s : State) : Host.Outcome State Fault Refusal :=
  runHandler 3#16 (formatR a fun i => do
    let v ← pop
    writeReg i v) s

end Sys2Proof.Machine
end

