-- ==== Sys2Proof/Machine/SystemOps.lean ====
section
/-! DEFINITION. `halt` and `noop` (41_system.md). -/

namespace Sys2Proof.Machine

/-- `halt`, opcode 0 (R100, 41_system.md). -/
def execHalt (s : State) : Host.Outcome State Fault Refusal :=
  runHandler 0#16 enterHalted s

/-- `noop`, opcode 21 (R101, 41_system.md). -/
def execNoop (s : State) : Host.Outcome State Fault Refusal :=
  runHandler 21#16 (pure ()) s

end Sys2Proof.Machine
end

