-- ==== Sys2Proof/Syntax.lean ====
section
/-! DEFINITION. The 22 instructions as syntax, one constructor per row of the opcode table (R69, 30_encoding.md).

An instruction carries its operand words RAW, as they stand in Memory: the opcode alone decides which
instruction it is and how long it is (R60, R73), and an illegal operand word is not another instruction but a
fault of this one (R71, R90), raised when it executes. -/

namespace Sys2Proof

/-- The two kinds of operand position (R65, 30_encoding.md). -/
inductive OperandKind where
  /-- a register reference only; it yields an index -/
  | reg
  /-- a literal or a register reference; it yields a value -/
  | val
deriving DecidableEq, Repr

/-- The instruction set (R69, 30_encoding.md). Operands stand in the order `a`, `b`, `c` of R64. -/
inductive Instr where
  | halt
  | set (a b : Word)
  | push (a : Word)
  | pop (a : Word)
  | eq (a b c : Word)
  | gt (a b c : Word)
  | jmp (a : Word)
  | jt (a b : Word)
  | jf (a b : Word)
  | add (a b c : Word)
  | mult (a b c : Word)
  | mod (a b c : Word)
  | and (a b c : Word)
  | or (a b c : Word)
  | not (a b : Word)
  | rmem (a b : Word)
  | wmem (a b : Word)
  | call (a : Word)
  | ret
  | out (a : Word)
  /-- the instruction `in` (the bare word is Lean's) -/
  | in_ (a : Word)
  | noop
deriving DecidableEq, Repr

/-- The operand words of an instruction with the kind of each position, in the order they stand in Memory:
the column "Operands" of R69 (30_encoding.md), that is, the formats of R61. -/
def Instr.operands : Instr → List (OperandKind × Word)
  | .halt => []
  | .set a b => [(.reg, a), (.val, b)]
  | .push a => [(.val, a)]
  | .pop a => [(.reg, a)]
  | .eq a b c => [(.reg, a), (.val, b), (.val, c)]
  | .gt a b c => [(.reg, a), (.val, b), (.val, c)]
  | .jmp a => [(.val, a)]
  | .jt a b => [(.val, a), (.val, b)]
  | .jf a b => [(.val, a), (.val, b)]
  | .add a b c => [(.reg, a), (.val, b), (.val, c)]
  | .mult a b c => [(.reg, a), (.val, b), (.val, c)]
  | .mod a b c => [(.reg, a), (.val, b), (.val, c)]
  | .and a b c => [(.reg, a), (.val, b), (.val, c)]
  | .or a b c => [(.reg, a), (.val, b), (.val, c)]
  | .not a b => [(.reg, a), (.val, b)]
  | .rmem a b => [(.reg, a), (.val, b)]
  | .wmem a b => [(.val, a), (.val, b)]
  | .call a => [(.val, a)]
  | .ret => []
  | .out a => [(.val, a)]
  | .in_ a => [(.reg, a)]
  | .noop => []

end Sys2Proof
end

