-- ==== Sys2Proof/WellFormed.lean ====
section
/-! DEFINITION. The well-formed instructions: every operand word is legal in its position (R63, R65, R71,
30_encoding.md). An ill-formed instruction is still decoded and executed: it takes the fault of its first
illegal operand. -/

namespace Sys2Proof

/-- The raw word may stand in a position of this kind: 32768 to 32775 in a `reg` position (R67), 0 to 32775 in a
`val` position (R66). -/
def OperandKind.legal : OperandKind → Word → Bool
  | .reg, w => decide (Config.regBase ≤ w.toNat) && decide (w.toNat ≤ Config.regTop)
  | .val, w => decide (w.toNat ≤ Config.regTop)

/-- Every operand word of the instruction is legal in its position. -/
def Instr.wf (i : Instr) : Bool :=
  i.operands.all fun p => p.1.legal p.2

end Sys2Proof
end

