-- ==== Sys2Proof/Decode.lean ====
section
/-! DEFINITION. The decoder and the encoder, from the opcode map (R69, 30_encoding.md).

The decoder reads word 0 as a whole number (R62), takes the operand count from the opcode alone (R73), and
keeps the operand words raw. -/

namespace Sys2Proof

/-- Why a sequence of words is no instruction. -/
inductive Reject where
  /-- word 0 is 22 to 65535 (R70, 30_encoding.md) -/
  | malformedOpcode (w : Word)
  /-- the sequence ends before the instruction does (the step always supplies four words and never meets this) -/
  | endOfWords
deriving DecidableEq, Repr

/-- The instruction at the head of a sequence of words, with the words after it (R60, R64, R69, R73,
30_encoding.md). Total on any words; what is no instruction is rejected by name. -/
def decode : List Word → Except Reject (Instr × List Word)
  | [] => .error .endOfWords
  | w :: ws =>
    match w.toNat, ws with
    | 0, r => .ok (.halt, r)
    | 1, a :: b :: r => .ok (.set a b, r)
    | 2, a :: r => .ok (.push a, r)
    | 3, a :: r => .ok (.pop a, r)
    | 4, a :: b :: c :: r => .ok (.eq a b c, r)
    | 5, a :: b :: c :: r => .ok (.gt a b c, r)
    | 6, a :: r => .ok (.jmp a, r)
    | 7, a :: b :: r => .ok (.jt a b, r)
    | 8, a :: b :: r => .ok (.jf a b, r)
    | 9, a :: b :: c :: r => .ok (.add a b c, r)
    | 10, a :: b :: c :: r => .ok (.mult a b c, r)
    | 11, a :: b :: c :: r => .ok (.mod a b c, r)
    | 12, a :: b :: c :: r => .ok (.and a b c, r)
    | 13, a :: b :: c :: r => .ok (.or a b c, r)
    | 14, a :: b :: r => .ok (.not a b, r)
    | 15, a :: b :: r => .ok (.rmem a b, r)
    | 16, a :: b :: r => .ok (.wmem a b, r)
    | 17, a :: r => .ok (.call a, r)
    | 18, r => .ok (.ret, r)
    | 19, a :: r => .ok (.out a, r)
    | 20, a :: r => .ok (.in_ a, r)
    | 21, r => .ok (.noop, r)
    | n, _ => if n < Config.nops then .error .endOfWords else .error (.malformedOpcode w)

/-- The words of an instruction, in the order they stand in Memory (R60, R64, R69, 30_encoding.md). -/
def encode : Instr → List Word
  | .halt => [0#16]
  | .set a b => [1#16, a, b]
  | .push a => [2#16, a]
  | .pop a => [3#16, a]
  | .eq a b c => [4#16, a, b, c]
  | .gt a b c => [5#16, a, b, c]
  | .jmp a => [6#16, a]
  | .jt a b => [7#16, a, b]
  | .jf a b => [8#16, a, b]
  | .add a b c => [9#16, a, b, c]
  | .mult a b c => [10#16, a, b, c]
  | .mod a b c => [11#16, a, b, c]
  | .and a b c => [12#16, a, b, c]
  | .or a b c => [13#16, a, b, c]
  | .not a b => [14#16, a, b]
  | .rmem a b => [15#16, a, b]
  | .wmem a b => [16#16, a, b]
  | .call a => [17#16, a]
  | .ret => [18#16]
  | .out a => [19#16, a]
  | .in_ a => [20#16, a]
  | .noop => [21#16]

/-- The opcode word of an instruction: the first word of its encoding (R62, 30_encoding.md). -/
def Instr.opcode (i : Instr) : Word := (encode i).headD 0#16

/-- The longest instruction's four words, from a number whose bit 0 is the least significant bit of word 0
and whose bits from `nbits` up are taken as 0. -/
def tableWords (nbits w : Nat) : List Word :=
  let v := w % 2 ^ nbits
  [BitVec.ofNat 16 v, BitVec.ofNat 16 (v / 2 ^ 16), BitVec.ofNat 16 (v / 2 ^ 32), BitVec.ofNat 16 (v / 2 ^ 48)]

/-- What the decoder reads from an instruction whose bits are numbered as spec/opcode_table.json numbers them. -/
def decodeTableWord (nbits w : Nat) : Option Instr :=
  match decode (tableWords nbits w) with
  | .ok (i, _) => some i
  | .error _ => none

end Sys2Proof
end

