-- ==== Sys2Proof/Machine/Fetch.lean ====
section
/-! DEFINITION. The fetch and validate parts of the step (R86 to R88, 40_execute_loop.md). -/

namespace Sys2Proof.Machine

/-- The word at this address; 0 above 32767, where Memory has none. That 0 is no value of the machine: an operand word
that would stand there is never used, since its fetch faults first (`fetchOperand`; log entry 11). -/
def wordAt (m : Memory) (n : Nat) : Word := if n < Config.memWords then m.readWord n else 0#16

/-- The four words from `pc` up: the longest instruction (R60, 30_encoding.md). -/
def fetchWindow (s : State) : List Word :=
  [wordAt s.mem s.pc.toNat, wordAt s.mem (s.pc.toNat + 1), wordAt s.mem (s.pc.toNat + 2), wordAt s.mem (s.pc.toNat + 3)]

/-- The opcode fetch at an address above 32767 (R87, 40_execute_loop.md; R192 (i), 60_exceptions.md): `fop` is 0, no
opcode having been read, and `pc` is unchanged. -/
def opcodeFetchFault (s : State) : State := takeFault .addressOutOfRange s.pc s.pc 0#16 s

/-- A window that is no instruction. A malformed opcode (R88, 40_execute_loop.md; R186, 60_exceptions.md) faults with
`pc` past the opcode word. A window of four words never ends early; that case is given the fault of a word
Memory does not have. -/
def rejectedFetch (r : Reject) (s : State) : State :=
  match r with
  | .malformedOpcode w => takeFault .malformedOpcode w s.pc w (s.setPc (s.pc + 1#16))
  | .endOfWords => opcodeFetchFault s

/-- Halted and Faulted: nothing is fetched and everything is frozen (R94, 40_execute_loop.md). DEDUCED: "no step" is
modelled as a step that changes nothing, which R85's table gives for "anything but reset" (log entry 3). -/
def frozen (s : State) : State := s

/-- The four words an instruction of the opcode table occupies, stored where the next step fetches, and the run state
that makes it fetch: Running, with the fault record clear as R18 (10_state.md) has it while Running. -/
def placeAtPc (s : State) (ws : List Word) : State :=
  { s with mem := s.mem.writeWords s.pc.toNat ws, runstate := .running, faultRec := FaultRecord.clear }

end Sys2Proof.Machine
end

