-- ==== Sys2Proof/Machine/Step.lean ====
section
/-! DEFINITION. The step of the machine (R86, 40_execute_loop.md). -/

namespace Sys2Proof.Machine

/-- One step: fetch the opcode, validate it, execute its handler (R86 to R89). Halted and Faulted are frozen (R94). -/
def step (s : State) : Host.Outcome State Fault Refusal :=
  match s.runstate with
  | .running =>
    if inMemory s.pc then
      match decode (fetchWindow s) with
      | .ok (i, _) => exec i s
      | .error r => .next (rejectedFetch r s)
    else .next (opcodeFetchFault s)
  | .halted => .next (frozen s)
  | .faulted => .next (frozen s)

/-- `s` with an instruction, given as the bits of spec/opcode_table.json, stored where `step` fetches next. -/
def State.withFetchWord (s : State) (nbits w : Nat) : State := placeAtPc s (tableWords nbits w)

end Sys2Proof.Machine
end

