-- ==== Sys2Proof/Machine/Boot.lean ====
section
/-! DEFINITION. The boundary with the outside before and beside a run: the program image, the console input, reset
(R6, 00_scope.md; R220 to R222, 70_reset_and_hazards.md; R175, 49_io.md). -/

namespace Sys2Proof.Machine

/-- `IMAGE`: a sequence of at most 32768 words (R6, 00_scope.md; R222, 70_reset_and_hazards.md). -/
structure Image where
  words : List Word
  fits : words.length ≤ Config.memWords
deriving DecidableEq, Repr

/-- The words of a byte stream, little-endian (R41, 20_memory.md; R222); none for an odd number of bytes. -/
def wordsOfBytes : List Byte → Option (List Word)
  | [] => some []
  | [_] => none
  | lo :: hi :: bs => (wordsOfBytes bs).map (BitVec.ofNat 16 (lo.toNat + 256 * hi.toNat) :: ·)

/-- The image of an image file (R222): refused when the byte count is odd or above 65536 (the spec's decision D13,
log entry 19). -/
def Image.ofBytes (bs : List Byte) : Option Image :=
  match wordsOfBytes bs with
  | some ws => if h : ws.length ≤ Config.memWords then some ⟨ws, h⟩ else none
  | none => none

/-- The lines of a byte sequence, each with its terminator; bytes after the last terminator are a line too
(R175, R176, 49_io.md; log entries 7 and 8). -/
def linesOf : List Byte → List (List Byte)
  | [] => []
  | b :: bs =>
    if b = Config.newline then [b] :: linesOf bs
    else
      match linesOf bs with
      | [] => [[b]]
      | l :: ls => (b :: l) :: ls

/-- `INPUT`: the bytes the input source delivers, a sequence finite or infinite (R6, 00_scope.md). It is an argument of a
run and no part of State. -/
inductive Input where
  | finite (bytes : List Byte)
  | infinite (byte : Nat → Byte)

/-- Byte `n` of `INPUT`, counted from 0; none from the end of a finite `INPUT` on. -/
def Input.get? : Input → Nat → Option Byte
  | .finite bytes, n => bytes[n]?
  | .infinite byte, n => some (byte n)

/-- `l` is the full line of `INPUT` that begins at byte `n` (R174, R176, 49_io.md; log entries 7 and 8): its bytes up to
and including the first terminator, or all that is left where a finite `INPUT` ends first. An infinite `INPUT` without a
further terminator has no further full line, and an `in` then waits for ever (R174). -/
def Input.isLine (input : Input) (n : Nat) (l : List Byte) : Prop :=
  l ≠ [] ∧ (∀ k, k < l.length → input.get? (n + k) = l[k]?) ∧ Config.newline ∉ l.dropLast ∧
    (l.getLast? = some Config.newline ∨ input.get? (n + l.length) = none)

/-- The state when execution begins (R25, 10_state.md), for an image and for the lines of `INPUT`. -/
def boot (img : Image) (lines : List (List Byte)) : State :=
  { State.reset with
    mem := Memory.writeWords [] 0 img.words
    console := { Console.reset with source := lines } }

/-- The same, a finite `INPUT` given as bytes, all of its lines delivered at once. For an `INPUT` of either kind, see `Runs`
(Safety.lean). -/
def bootBytes (img : Image) (input : List Byte) : State := boot img (linesOf input)

/-- The external source delivers one more line, between steps (R174, R175, 49_io.md; log entry 5). -/
def deliver (line : List Byte) (s : State) : State :=
  { s with console := { s.console with source := s.console.source ++ [line] } }

/-- `rst` (R24, 10_state.md; R220, 70_reset_and_hazards.md): the state of R25 with the loader's image and the new run's
input; nothing of the old state survives "except what the output sink has already received" (log entry 10). -/
def applyReset (img : Image) (lines : List (List Byte)) (s : State) : State :=
  { boot img lines with output := s.output }

end Sys2Proof.Machine
end

