-- ==== Sys2Proof/Machine/Ports.lean ====
section
/-! DEFINITION. The output ports of the block as functions of the state (R24, R17, 10_state.md; R193, 60_exceptions.md). No
rule depends on them; the model has no time, so a port's value belongs to the cycle whose step starts in the state. -/

namespace Sys2Proof.Machine

/-- Running = 0, Halted = 1, Faulted = 2; 3 never appears (R17, 10_state.md). -/
def RunState.code : RunState → BitVec 2
  | .running => 0#2
  | .halted => 1#2
  | .faulted => 2#2

/-- The codes of R193 (60_exceptions.md). -/
def Fault.code : Fault → BitVec 4
  | .malformedOpcode => 1#4
  | .invalidOperand => 2#4
  | .invalidRegisterOperand => 3#4
  | .stackOverflow => 4#4
  | .stackUnderflow => 5#4
  | .divisionByZero => 6#4
  | .addressOutOfRange => 7#4

/-- `fkind` as the port shows it: 0 is no fault (R193, 60_exceptions.md). -/
def faultKindCode : Option Fault → BitVec 4
  | none => 0#4
  | some k => k.code

/-- The instruction the step at this state executes, if the machine is Running and there is one. -/
def currentInstr (s : State) : Option Instr :=
  match s.runstate with
  | .running =>
    if inMemory s.pc then
      match decode (fetchWindow s) with
      | .ok (i, _) => some i
      | .error _ => none
    else none
  | .halted => none
  | .faulted => none

/-- `out_valid` with `out_data`: the byte an `out` writes in this cycle; none while `out_valid` is low (R24,
10_state.md: `out_data` is "meaningful only while `out_valid` is high"). -/
def outPort (s : State) : Option Byte :=
  match currentInstr s with
  | some (.out a) => if inMemory (s.pc + 1#16) then (resolveValue a s).map lowByte else none
  | _ => none

/-- `in_req`: high while the instruction at `pc` is an `in` whose register operand is valid (R24, 10_state.md). -/
def inReq (s : State) : Bool :=
  match currentInstr s with
  | some (.in_ a) => inMemory (s.pc + 1#16) && (resolveRegisterIndex a).isSome
  | _ => false

/-- `in_valid` with `in_data`: the byte the console has ready (R24, 10_state.md; R175, 49_io.md). -/
def inPort (s : State) : Option Byte := s.console.next?.map Prod.fst

/-- The output ports of R24 (10_state.md). -/
structure Ports where
  out : Option Byte
  inReq : Bool
  runState : BitVec 2
  faultKind : BitVec 4
  faultAddr : Word
  faultOpcode : Word
  faultValue : Word
deriving DecidableEq, Repr

/-- The ports in a state (R24, R17, R18, 10_state.md). -/
def State.ports (s : State) : Ports where
  out := outPort s
  inReq := inReq s
  runState := s.runstate.code
  faultKind := faultKindCode s.faultRec.fkind
  faultAddr := s.faultRec.faddr
  faultOpcode := s.faultRec.fop
  faultValue := s.faultRec.fval

end Sys2Proof.Machine
end

