-- ==== Sys2Proof/Safety.lean ====
section
/-! DEFINITION. What a legal state and a safe run are. -/

namespace Sys2Proof.Machine

/-- A fault record that R193 (60_exceptions.md) allows: the column of what each kind records. -/
def FaultRecord.legal (r : FaultRecord) : Prop :=
  match r.fkind with
  | none => r = FaultRecord.clear
  | some .malformedOpcode => 22 ≤ r.fval.toNat ∧ r.fop = r.fval ∧ r.faddr.toNat < 32768
  | some .invalidOperand => 32776 ≤ r.fval.toNat ∧ r.fop.toNat < 22 ∧ r.faddr.toNat < 32768
  | some .invalidRegisterOperand =>
    (r.fval.toNat < 32768 ∨ 32776 ≤ r.fval.toNat) ∧ r.fop.toNat < 22 ∧ r.faddr.toNat < 32768
  | some .stackOverflow => r.fval = 0#16 ∧ (r.fop = 2#16 ∨ r.fop = 17#16) ∧ r.faddr.toNat < 32768
  | some .stackUnderflow => r.fval = 0#16 ∧ (r.fop = 3#16 ∨ r.fop = 18#16) ∧ r.faddr.toNat < 32768
  | some .divisionByZero => r.fval = 0#16 ∧ r.fop = 11#16 ∧ r.faddr.toNat < 32768
  | some .addressOutOfRange =>
    32768 ≤ r.fval.toNat ∧
      ((r.fop = 0#16 ∧ r.faddr = r.fval) ∨ (1 ≤ r.fop.toNat ∧ r.fop.toNat < 22 ∧ r.faddr.toNat < 32768))

/-- The legal states of the machine: those the rules of 10_state.md and 20_memory.md describe. -/
structure State.Inv (s : State) : Prop where
  /-- Memory is in its canonical form -/
  memory : s.mem.wf = true
  /-- "depth must never exceed the VM's word-capacity (32768)" (R14, 10_state.md) -/
  depth : s.stack.length ≤ Config.stackCap
  /-- a fault is recorded exactly while Faulted (R18, 10_state.md) -/
  recorded : s.faultRec.fkind.isSome ↔ s.runstate = .faulted
  /-- the record is one R193 allows, all zero while there is no fault (R18, 10_state.md) -/
  record : s.faultRec.legal
  /-- the Console Input Buffer is in a state R173 allows -/
  buffer : s.console.wf = true

/-- Halted is the only final state of a run (R94, R95, 40_execute_loop.md). -/
def State.Final (s : State) : Prop := s.runstate = .halted

/-- A safe state: the machine has not faulted. -/
def State.Safe (s : State) : Prop := s.runstate ≠ .faulted

/-- Stuck: Running at an `in` that no byte answers (R93, R95, 40_execute_loop.md). -/
def State.Stuck (s : State) : Prop := inReq s = true ∧ inPort s = none

/-- A state that some number of steps leads to (a step never stops the model, so a run has every length). -/
inductive Reaches : State → State → Prop
  | refl (s : State) : Reaches s s
  | tail {s t u : State} : Reaches s t → step t = .next u → Reaches s u

/-- The step at this state takes an input byte: `in_req` and `in_valid` are both high (R24, 10_state.md). -/
def takesInput (s : State) : Bool := inReq s && (inPort s).isSome

/-- `Runs img input n k s`: a run over the image `img` and over `INPUT`, finite or infinite (R6, 00_scope.md), can stand in
`s` when the source has delivered the first `n` bytes of `INPUT` and `k` `in` instructions have completed. The source
delivers `INPUT` in order, a full line at a time, before or between any two steps (R174, R175, 49_io.md; log entry 5). -/
inductive Runs (img : Image) (input : Input) : Nat → Nat → State → Prop
  | start : Runs img input 0 0 (boot img [])
  | line {n k : Nat} {s : State} {l : List Byte} :
      Runs img input n k s → input.isLine n l → Runs img input (n + l.length) k (deliver l s)
  | step {n k : Nat} {s t : State} :
      Runs img input n k s → step s = .next t → Runs img input n (if takesInput s then k + 1 else k) t

end Sys2Proof.Machine
end

