-- ==== Sys2Proof/Certificates/Slice0/Obligations.lean ====
section
/-! DEFINITION. The statements for the provers, and the few words of the spec they are written in. -/

open Sys2Proof Sys2Proof.Machine

namespace Sys2Proof.Spec

/-- All the words of `i` stand in Memory when its opcode word is at `pc` (R64, 30_encoding.md). -/
abbrev Fits (i : Instr) (s : State) : Prop := s.pc.toNat + i.operands.length ≤ 32767

/-- The first operand, in the order `a`, `b`, `c`, whose raw word is illegal in its position: the fault, the raw word,
and the number of words fetched by then, the first `n` before this list (R187, R188, 60_exceptions.md). -/
def firstIllegal (n : Nat) : List (OperandKind × Word) → Option (Fault × Word × Nat)
  | [] => none
  | (.reg, w) :: ops =>
    if 32768 ≤ w.toNat ∧ w.toNat ≤ 32775 then firstIllegal (n + 1) ops else some (.invalidRegisterOperand, w, n + 1)
  | (.val, w) :: ops =>
    if w.toNat ≤ 32775 then firstIllegal (n + 1) ops else some (.invalidOperand, w, n + 1)

/-- The Faulted state of a step that began in `s` and fetched `n` words: nothing but `pc`, `runstate` and the fault
record differs from `s` (R195, R196, 60_exceptions.md). -/
def faultedAt (s : State) (fop : Word) (k : Fault) (v : Word) (n : Nat) : State :=
  { s with
    pc := s.pc + BitVec.ofNat 16 n
    runstate := .faulted
    faultRec := { fkind := some k, faddr := s.pc, fop := fop, fval := v } }

/-- The instruction faults on its first illegal operand, before any other check and with no effect. -/
def FaultsOnIllegalOperand (i : Instr) (s : State) : Prop :=
  ∀ k w n, firstIllegal 1 i.operands = some (k, w, n) → exec i s = .next (faultedAt s i.opcode k w n)

/-- The state a fault of kind `k` leaves: Faulted, with `k` recorded. -/
abbrev Takes (k : Fault) (t : State) : Prop := t.runstate = .faulted ∧ t.faultRec.fkind = some k

/-- The raw word of the destination operand: the twelve instructions of R26 (10_state.md) have one. -/
def destination : Instr → Option Word
  | .set a _ => some a
  | .pop a => some a
  | .eq a _ _ => some a
  | .gt a _ _ => some a
  | .add a _ _ => some a
  | .mult a _ _ => some a
  | .mod a _ _ => some a
  | .and a _ _ => some a
  | .or a _ _ => some a
  | .not a _ => some a
  | .rmem a _ => some a
  | .in_ a => some a
  | .halt => none
  | .push _ => none
  | .jmp _ => none
  | .jt _ _ => none
  | .jf _ _ => none
  | .wmem _ _ => none
  | .call _ => none
  | .ret => none
  | .out _ => none
  | .noop => none

/-- Push a sequence of words, the first first; none if a push faults. -/
def pushAll : List Word → State → Option State
  | [], s => some s
  | v :: vs, s =>
    match push v s with
    | .ok _ t => pushAll vs t
    | .error _ _ => none

/-- Pop `n` words, in the order they come; none if a pop faults. -/
def popAll : Nat → State → Option (List Word × State)
  | 0, s => some ([], s)
  | n + 1, s =>
    match pop s with
    | .ok v t => (popAll n t).map fun p => (v :: p.1, p.2)
    | .error _ _ => none

/-- The bytes the buffer gives in `n` requests, as far as there are any. -/
def bytesRead : Nat → Console → List Byte
  | 0, _ => []
  | n + 1, c =>
    match c.next? with
    | some (b, c') => b :: bytesRead n c'
    | none => []

end Sys2Proof.Spec

open Sys2Proof.Spec

/-! ## Encoding -/

/-- The decoder and the encoder are each other's inverse, on every instruction and every sequence of words: no bit of an
encoding is dropped, and no two encodings are one instruction (30_encoding.md, sections 1 and 3). -/
def Obligations.DecodeAgreesWithEncode : Prop :=
  ∀ (ws rest : List Word) (i : Instr), decode ws = .ok (i, rest) ↔ ws = encode i ++ rest

/-- The words 22 to 65535, and no others, are rejected as malformed opcodes, whatever words follow (30_encoding.md, the
opcode map). -/
def Obligations.DecoderRejectsExactlyMalformedOpcodes : Prop :=
  ∀ (w : Word) (ws : List Word),
    (22 ≤ w.toNat → decode (w :: ws) = .error (.malformedOpcode w)) ∧
    (w.toNat ≤ 21 → ∀ v, decode (w :: ws) ≠ .error (.malformedOpcode v))

/-- Words written out from the table of R69 (30_encoding.md) decode to the instructions they stand for. -/
def Obligations.TableWordsDecode : Prop :=
  decode [0x0000#16] = .ok (.halt, []) ∧
  decode [0x0001#16, 0x8001#16, 0x04D2#16] = .ok (.set 0x8001#16 0x04D2#16, []) ∧
  decode [0x0005#16, 0x8000#16, 0x0009#16, 0x0003#16] = .ok (.gt 0x8000#16 0x0009#16 0x0003#16, []) ∧
  decode [0x0007#16, 0x0001#16, 0x0064#16] = .ok (.jt 0x0001#16 0x0064#16, []) ∧
  decode [0x000B#16, 0x8000#16, 0x0007#16, 0x0003#16] = .ok (.mod 0x8000#16 0x0007#16 0x0003#16, []) ∧
  decode [0x000E#16, 0x8000#16, 0x3039#16] = .ok (.not 0x8000#16 0x3039#16, []) ∧
  decode [0x0010#16, 0x0064#16, 0x0007#16] = .ok (.wmem 0x0064#16 0x0007#16, []) ∧
  decode [0x0011#16, 0x0064#16] = .ok (.call 0x0064#16, []) ∧
  decode [0x0014#16, 0x8000#16] = .ok (.in_ 0x8000#16, [])

/-! ## Reset, the invariant, the step -/

/-- The reset state is a legal state. -/
def Obligations.ResetMeetsInv : Prop := State.reset.Inv

/-- Every step from a legal state leads to a legal state: Memory stays in its canonical form, the stack within its
capacity (R14, 10_state.md), a fault is recorded exactly while Faulted and the record is one that R18 (10_state.md) and
R193 (60_exceptions.md) allow, and the console buffer stays well-formed. The record's contents are the spec's decisions
D7 and D8 (log entry 16). -/
def Obligations.StepKeepsInv : Prop :=
  ∀ s t : State, s.Inv → step s = .next t → t.Inv

/-- The table of 10_state.md section 9 with nothing loaded. The zero registers are the spec's decision D5 (log entry 9),
the zero record its decision D8 (log entry 16). -/
def Obligations.ResetValues : Prop :=
  State.reset.pc = 0#16 ∧ State.reset.runstate = .running ∧ State.reset.stack = [] ∧
  (∀ r : Reg, State.reset.reg r = 0#16) ∧ (∀ n, State.reset.mem.readWord n = 0#16) ∧
  State.reset.faultRec = { fkind := none, faddr := 0#16, fop := 0#16, fval := 0#16 } ∧
  State.reset.console.mode = .empty ∧ State.reset.console.line = [] ∧ State.reset.console.cursor = 0 ∧
  State.reset.output = []

/-- When the words at `pc`, as far as Memory has them, are those of an instruction, a Running machine's step is the execution
of that instruction at that state; executing it moves `pc` past its words itself (R86, R89, 40_execute_loop.md). An
instruction at or below 32767 whose operand words would run past 32767 is one of them: what the step then does is in
`OperandFetchBeyondMemoryFaults`, and words Memory does not have play no part (log entry 11). -/
def Obligations.StepRunsDecodedInstruction : Prop :=
  ∀ (i : Instr) (s : State), s.runstate = .running → s.pc.toNat ≤ 32767 →
    (∀ k w, (encode i)[k]? = some w → s.pc.toNat + k ≤ 32767 → s.mem.readWord (s.pc.toNat + k) = w) →
    step s = exec i s

/-- Operand words that would stand beyond Memory have no influence: two instructions with the same opcode whose operand
words agree wherever Memory has them execute alike (log entry 11). -/
def Obligations.WordsBeyondMemoryAreUnused : Prop :=
  ∀ (i j : Instr) (s : State), s.pc.toNat ≤ 32767 → i.opcode = j.opcode →
    (∀ k, s.pc.toNat + 1 + k ≤ 32767 → i.operands[k]? = j.operands[k]?) →
    exec i s = exec j s

/-- An opcode fetch above address 32767 faults: `fval` and `faddr` are the address, `fop` is 0, `pc` is unchanged
(60_exceptions.md, section 1, AddressOutOfRange at site (i)). That it faults, and does not wrap, is the spec's
decision D3 (log entry 14). -/
def Obligations.OpcodeFetchBeyondMemoryFaults : Prop :=
  ∀ s : State, s.runstate = .running → 32768 ≤ s.pc.toNat →
    step s = .next (faultedAt s 0#16 .addressOutOfRange s.pc 0)

/-- R186, whole: a word of 22 to 65535 fetched as an opcode faults with that word as `fval` and `fop`, the address it was
fetched from as `faddr`, and `pc` past it; and no instruction handler raises this fault. -/
def Obligations.MalformedOpcodeFaults : Prop :=
  (∀ s : State, s.runstate = .running → s.pc.toNat ≤ 32767 → 22 ≤ (s.mem.readWord s.pc.toNat).toNat →
    step s = .next (faultedAt s (s.mem.readWord s.pc.toNat) .malformedOpcode (s.mem.readWord s.pc.toNat) 1)) ∧
  (∀ (i : Instr) (s t : State), s.runstate = .running → exec i s = .next t → t.runstate = .faulted →
    t.faultRec.fkind ≠ some .malformedOpcode)

/-- No program is loaded from outside the words themselves: with an instruction of the opcode table placed at `pc`, the
next step is exactly its execution. -/
def Obligations.PlacedInstructionRunsNext : Prop :=
  ∀ (nbits w : Nat) (i : Instr) (s : State), s.mem.wf = true → s.pc.toNat ≤ 32764 →
    decodeTableWord nbits w = some i → step (s.withFetchWord nbits w) = exec i (s.withFetchWord nbits w)

/-! ## The Operand Resolver -/

/-- R66 and R67, for an operand word that stands in Memory (beyond it the fetch faults, see
`OperandFetchBeyondMemoryFaults`): a value operand yields the literal itself or the whole register, and faults above
32775; a register operand yields the index for 32768 to 32775 and faults on any other word, literals included. -/
def Obligations.ResolverModes : Prop :=
  ∀ (w : Word) (s : State), s.pc.toNat ≤ 32767 →
    (w.toNat < 32768 → valOperand w s = .ok w { s with pc := s.pc + 1#16 }) ∧
    (∀ r : Reg, w.toNat = 32768 + r.val → valOperand w s = .ok (s.reg r) { s with pc := s.pc + 1#16 }) ∧
    (32775 < w.toNat → valOperand w s = .error (.raised .invalidOperand w) { s with pc := s.pc + 1#16 }) ∧
    (∀ r : Reg, w.toNat = 32768 + r.val → regOperand w s = .ok r { s with pc := s.pc + 1#16 }) ∧
    (w.toNat < 32768 ∨ 32775 < w.toNat →
      regOperand w s = .error (.raised .invalidRegisterOperand w) { s with pc := s.pc + 1#16 })

/-- Every instruction but `halt`, `pop`, `ret`, `in` and `noop` has a value operand (R187, 60_exceptions.md). An instruction
takes InvalidOperand exactly when, of the operands Memory has, the first illegal one is a value operand; that word is
then above 32775, and the fault records it, the opcode and `a0`, with `pc` past the offending word and nothing else
changed. That the first in the order `a`, `b`, `c` decides, and where `pc` stands, are the spec's decision D9 (log entry
17). -/
def Obligations.InvalidOperandFaults : Prop :=
  (∀ i : Instr, (∃ w, (OperandKind.val, w) ∈ i.operands) ↔
    ¬ (i = .halt ∨ (∃ a, i = .pop a) ∨ i = .ret ∨ (∃ a, i = .in_ a) ∨ i = .noop)) ∧
  (∀ (i : Instr) (s : State), s.runstate = .running → s.pc.toNat ≤ 32767 →
    ∃ t, exec i s = .next t ∧
      (Takes .invalidOperand t ↔
        ∃ w n, firstIllegal 1 (i.operands.take (32767 - s.pc.toNat)) = some (.invalidOperand, w, n)) ∧
      (∀ w n, firstIllegal 1 (i.operands.take (32767 - s.pc.toNat)) = some (.invalidOperand, w, n) →
        32776 ≤ w.toNat ∧ i.operands[n - 2]? = some (.val, w) ∧ t = faultedAt s i.opcode .invalidOperand w n))

/-- R188, whole: the twelve instructions with a register operand have it as operand `a`; an instruction takes
InvalidRegisterOperand exactly when operand `a` is a register operand that Memory has and its word is not 32768 to
32775, and it records the raw word, the opcode and `a0`, with `pc = a0 + 2` and nothing else changed. -/
def Obligations.InvalidRegisterOperandFaults : Prop :=
  (∀ (i : Instr) (w : Word), (OperandKind.reg, w) ∈ i.operands ↔ destination i = some w) ∧
  (∀ i : Instr, destination i = (i.operands.head?).bind fun p => if p.1 = .reg then some p.2 else none) ∧
  (∀ (i : Instr) (s : State), s.runstate = .running → s.pc.toNat ≤ 32767 →
    ∃ t, exec i s = .next t ∧
      (Takes .invalidRegisterOperand t ↔
        s.pc.toNat + 1 ≤ 32767 ∧ ∃ w, destination i = some w ∧ (w.toNat < 32768 ∨ 32776 ≤ w.toNat)) ∧
      (∀ w, destination i = some w → Takes .invalidRegisterOperand t →
        t = faultedAt s i.opcode .invalidRegisterOperand w 2))

/-- An instruction whose words run past address 32767: the operands Memory has are validated in order, and if they are all
legal the fetch of the one at 32768 faults with `fval = 32768` and `pc = 32768` (60_exceptions.md, section 1,
AddressOutOfRange at site (ii), and section 2). The spec's decisions D3 and D9 (log entries 14 and 17). -/
def Obligations.OperandFetchBeyondMemoryFaults : Prop :=
  ∀ (i : Instr) (s : State), s.pc.toNat ≤ 32767 → 32767 < s.pc.toNat + i.operands.length →
    (firstIllegal 1 (i.operands.take (32767 - s.pc.toNat)) = none →
      exec i s = .next (faultedAt s i.opcode .addressOutOfRange 32768#16 (32768 - s.pc.toNat))) ∧
    (∀ k w n, firstIllegal 1 (i.operands.take (32767 - s.pc.toNat)) = some (k, w, n) →
      exec i s = .next (faultedAt s i.opcode k w n))

/-! ## The instructions, one by one -/

/-- R100. -/
def Obligations.HaltStops : Prop :=
  ∀ s : State, exec .halt s = .next { s with runstate := .halted, pc := s.pc + 1#16 }

/-- R101. -/
def Obligations.NoopOnlyAdvancesPc : Prop :=
  ∀ s : State, exec .noop s = .next { s with pc := s.pc + 1#16 }

/-- R105. -/
def Obligations.SetCopiesWholeValue : Prop :=
  ∀ (a b : Word) (s : State), Fits (.set a b) s →
    (∀ r vb, resolveRegisterIndex a = some r → resolveValue b s = some vb →
      exec (.set a b) s = .next { s with regs := s.regs.set r vb, pc := s.pc + 3#16 }) ∧
    FaultsOnIllegalOperand (.set a b) s

/-- R106. -/
def Obligations.PushPutsValueOnTop : Prop :=
  ∀ (a : Word) (s : State), Fits (.push a) s →
    (∀ va, resolveValue a s = some va →
      (s.stack.length ≠ 32768 → exec (.push a) s = .next { s with stack := va :: s.stack, pc := s.pc + 2#16 }) ∧
      (s.stack.length = 32768 → exec (.push a) s = .next (faultedAt s 2#16 .stackOverflow 0#16 2))) ∧
    FaultsOnIllegalOperand (.push a) s

/-- R107. -/
def Obligations.PopMovesTopToRegister : Prop :=
  ∀ (a : Word) (s : State), Fits (.pop a) s →
    (∀ r, resolveRegisterIndex a = some r →
      (∀ v vs, s.stack = v :: vs →
        exec (.pop a) s = .next { s with stack := vs, regs := s.regs.set r v, pc := s.pc + 2#16 }) ∧
      (s.stack = [] → exec (.pop a) s = .next (faultedAt s 3#16 .stackUnderflow 0#16 2))) ∧
    FaultsOnIllegalOperand (.pop a) s

/-- R115. -/
def Obligations.EqWritesOneOrZero : Prop :=
  ∀ (a b c : Word) (s : State), Fits (.eq a b c) s →
    (∀ r vb vc, resolveRegisterIndex a = some r → resolveValue b s = some vb → resolveValue c s = some vc →
      exec (.eq a b c) s =
        .next { s with regs := s.regs.set r (if vb = vc then 1#16 else 0#16), pc := s.pc + 4#16 }) ∧
    FaultsOnIllegalOperand (.eq a b c) s

/-- R116. -/
def Obligations.GtComparesUnsigned : Prop :=
  ∀ (a b c : Word) (s : State), Fits (.gt a b c) s →
    (∀ r vb vc, resolveRegisterIndex a = some r → resolveValue b s = some vb → resolveValue c s = some vc →
      exec (.gt a b c) s =
        .next { s with regs := s.regs.set r (if vc.toNat < vb.toNat then 1#16 else 0#16), pc := s.pc + 4#16 }) ∧
    FaultsOnIllegalOperand (.gt a b c) s

/-- R120. -/
def Obligations.JmpSetsPc : Prop :=
  ∀ (a : Word) (s : State), Fits (.jmp a) s →
    (∀ t, resolveValue a s = some t → exec (.jmp a) s = .next { s with pc := t }) ∧
    FaultsOnIllegalOperand (.jmp a) s

/-- R121: both operands are validated whether or not the jump is taken. -/
def Obligations.JtJumpsOnNonzero : Prop :=
  ∀ (a b : Word) (s : State), Fits (.jt a b) s →
    (∀ va t, resolveValue a s = some va → resolveValue b s = some t →
      exec (.jt a b) s = .next { s with pc := if va = 0#16 then s.pc + 3#16 else t }) ∧
    FaultsOnIllegalOperand (.jt a b) s

/-- R122: for the same operands exactly one of `jt` and `jf` jumps. -/
def Obligations.JfJumpsOnZero : Prop :=
  ∀ (a b : Word) (s : State), Fits (.jf a b) s →
    (∀ va t, resolveValue a s = some va → resolveValue b s = some t →
      exec (.jf a b) s = .next { s with pc := if va = 0#16 then t else s.pc + 3#16 } ∧
      ((exec (.jf a b) s = .next { s with pc := t } ∧ exec (.jt a b) s = .next { s with pc := s.pc + 3#16 }) ∨
        (exec (.jt a b) s = .next { s with pc := t } ∧ exec (.jf a b) s = .next { s with pc := s.pc + 3#16 }))) ∧
    FaultsOnIllegalOperand (.jf a b) s

/-- R130. -/
def Obligations.AddWrapsModulo32768 : Prop :=
  ∀ (a b c : Word) (s : State), Fits (.add a b c) s →
    (∀ r vb vc, resolveRegisterIndex a = some r → resolveValue b s = some vb → resolveValue c s = some vc →
      exec (.add a b c) s =
        .next { s with
          regs := s.regs.set r (BitVec.ofNat 16 ((vb.toNat + vc.toNat) % 32768)), pc := s.pc + 4#16 }) ∧
    FaultsOnIllegalOperand (.add a b c) s

/-- R131. -/
def Obligations.MultWrapsModulo32768 : Prop :=
  ∀ (a b c : Word) (s : State), Fits (.mult a b c) s →
    (∀ r vb vc, resolveRegisterIndex a = some r → resolveValue b s = some vb → resolveValue c s = some vc →
      exec (.mult a b c) s =
        .next { s with
          regs := s.regs.set r (BitVec.ofNat 16 ((vb.toNat * vc.toNat) % 32768)), pc := s.pc + 4#16 }) ∧
    FaultsOnIllegalOperand (.mult a b c) s

/-- The remainder of 45_arith.md, unsigned and not reduced further. The fault on a zero divisor is the spec's decision
D1 (log entry 13). -/
def Obligations.ModTakesRemainder : Prop :=
  ∀ (a b c : Word) (s : State), Fits (.mod a b c) s →
    (∀ r vb vc, resolveRegisterIndex a = some r → resolveValue b s = some vb → resolveValue c s = some vc →
      (vc ≠ 0#16 →
        exec (.mod a b c) s =
          .next { s with regs := s.regs.set r (BitVec.ofNat 16 (vb.toNat % vc.toNat)), pc := s.pc + 4#16 }) ∧
      (vc = 0#16 → exec (.mod a b c) s = .next (faultedAt s 11#16 .divisionByZero 0#16 4))) ∧
    FaultsOnIllegalOperand (.mod a b c) s

/-- The conjunction of 46_logic.md, bit by bit. That bit 15 of the result is 0 when both inputs have it is the spec's
decision D4 (log entry 15). -/
def Obligations.AndKeepsFifteenBits : Prop :=
  ∀ (a b c : Word) (s : State), Fits (.and a b c) s →
    (∀ r vb vc, resolveRegisterIndex a = some r → resolveValue b s = some vb → resolveValue c s = some vc →
      ∃ v : Word, (∀ k, v.getLsbD k = (decide (k < 15) && (vb.getLsbD k && vc.getLsbD k))) ∧
        exec (.and a b c) s = .next { s with regs := s.regs.set r v, pc := s.pc + 4#16 }) ∧
    FaultsOnIllegalOperand (.and a b c) s

/-- The disjunction of 46_logic.md, bit by bit. That bit 15 of the result is 0 when an input has it is the spec's
decision D4 (log entry 15). -/
def Obligations.OrKeepsFifteenBits : Prop :=
  ∀ (a b c : Word) (s : State), Fits (.or a b c) s →
    (∀ r vb vc, resolveRegisterIndex a = some r → resolveValue b s = some vb → resolveValue c s = some vc →
      ∃ v : Word, (∀ k, v.getLsbD k = (decide (k < 15) && (vb.getLsbD k || vc.getLsbD k))) ∧
        exec (.or a b c) s = .next { s with regs := s.regs.set r v, pc := s.pc + 4#16 }) ∧
    FaultsOnIllegalOperand (.or a b c) s

/-- R142: bits 14 to 0 are inverted, bit 15 of the result is 0, and the result is `32767 - (vb AND 0x7FFF)`. -/
def Obligations.NotComplementsFifteenBits : Prop :=
  ∀ (a b : Word) (s : State), Fits (.not a b) s →
    (∀ r vb, resolveRegisterIndex a = some r → resolveValue b s = some vb →
      ∃ v : Word, (∀ k, v.getLsbD k = (decide (k < 15) && !vb.getLsbD k)) ∧ v.toNat = 32767 - vb.toNat % 32768 ∧
        exec (.not a b) s = .next { s with regs := s.regs.set r v, pc := s.pc + 3#16 }) ∧
    FaultsOnIllegalOperand (.not a b) s

/-- The load of 47_memory_ops.md: the whole word. The fault above 32767 is the spec's decision D2 (log entry 14). -/
def Obligations.RmemLoadsWholeWord : Prop :=
  ∀ (a b : Word) (s : State), Fits (.rmem a b) s →
    (∀ r addr, resolveRegisterIndex a = some r → resolveValue b s = some addr →
      (addr.toNat ≤ 32767 →
        exec (.rmem a b) s =
          .next { s with regs := s.regs.set r (s.mem.readWord addr.toNat), pc := s.pc + 3#16 }) ∧
      (32767 < addr.toNat → exec (.rmem a b) s = .next (faultedAt s 15#16 .addressOutOfRange addr 3))) ∧
    FaultsOnIllegalOperand (.rmem a b) s

/-- The store of 47_memory_ops.md: the word at the address becomes the value, every other word and all other state stay
(the last of them by the next state's form). The fault above 32767 is the spec's decision D2 (log entry 14). Memory is
in its canonical form, which `StepKeepsInv` keeps. -/
def Obligations.WmemStoresWholeWord : Prop :=
  ∀ (a b : Word) (s : State), Fits (.wmem a b) s → s.mem.wf = true →
    (∀ addr v, resolveValue a s = some addr → resolveValue b s = some v →
      (addr.toNat ≤ 32767 →
        ∃ m : Memory, exec (.wmem a b) s = .next { s with mem := m, pc := s.pc + 3#16 } ∧
          m.readWord addr.toNat = v ∧ (∀ n, n ≠ addr.toNat → m.readWord n = s.mem.readWord n)) ∧
      (32767 < addr.toNat → exec (.wmem a b) s = .next (faultedAt s 16#16 .addressOutOfRange addr 3))) ∧
    FaultsOnIllegalOperand (.wmem a b) s

/-- R160. -/
def Obligations.CallPushesReturnAddress : Prop :=
  ∀ (a : Word) (s : State), Fits (.call a) s →
    (∀ t, resolveValue a s = some t →
      (s.stack.length ≠ 32768 → exec (.call a) s = .next { s with stack := (s.pc + 2#16) :: s.stack, pc := t }) ∧
      (s.stack.length = 32768 → exec (.call a) s = .next (faultedAt s 17#16 .stackOverflow 0#16 2))) ∧
    FaultsOnIllegalOperand (.call a) s

/-- R161. -/
def Obligations.RetPopsPc : Prop :=
  ∀ s : State,
    (∀ t vs, s.stack = t :: vs → exec .ret s = .next { s with stack := vs, pc := t }) ∧
    (s.stack = [] → exec .ret s = .next (faultedAt s 18#16 .stackUnderflow 0#16 1))

/-- R170. -/
def Obligations.OutWritesLowByte : Prop :=
  ∀ (a : Word) (s : State), Fits (.out a) s →
    (∀ v, resolveValue a s = some v →
      exec (.out a) s = .next { s with output := s.output ++ [BitVec.ofNat 8 (v.toNat % 256)], pc := s.pc + 2#16 }) ∧
    FaultsOnIllegalOperand (.out a) s

/-- The input of 49_io.md: with a byte available, the first of what is left of `INPUT`, zero-extended (the spec's decision
D11, log entry 18); with none, nothing changes (its decision D12, log entry 4); and an illegal operand faults at once,
whether or not there is a byte. -/
def Obligations.InReadsNextByte : Prop :=
  ∀ (a : Word) (s : State), Fits (.in_ a) s →
    (∀ r, resolveRegisterIndex a = some r →
      (∀ c cs, s.console.remainder = c :: cs →
        ∃ con : Console, con.remainder = cs ∧
          exec (.in_ a) s =
            .next { s with console := con, regs := s.regs.set r (BitVec.ofNat 16 c.toNat), pc := s.pc + 2#16 }) ∧
      (s.console.remainder = [] → exec (.in_ a) s = .next s)) ∧
    FaultsOnIllegalOperand (.in_ a) s

/-! ## Whole-machine rules -/

/-- R189, whole: an instruction takes StackOverflow exactly when it is `push` or `call`, its words are in Memory, its operand
is legal and the depth is 32768; it then records 0, the opcode and `a0`, with `pc = a0 + 2` and nothing else changed. -/
def Obligations.StackOverflowExactlyAtCapacity : Prop :=
  ∀ (i : Instr) (s : State), s.runstate = .running → s.pc.toNat ≤ 32767 →
    ∃ t, exec i s = .next t ∧
      (Takes .stackOverflow t ↔
        Fits i s ∧ s.stack.length = 32768 ∧ ∃ a v, (i = .push a ∨ i = .call a) ∧ resolveValue a s = some v) ∧
      (Takes .stackOverflow t → t = faultedAt s i.opcode .stackOverflow 0#16 2)

/-- R190, whole: an instruction takes StackUnderflow exactly when the stack is empty and it is `ret`, or `pop` with its words
in Memory and a legal operand; it then records 0, the opcode and `a0`, with `pc = a0 + 2` for `pop` and `a0 + 1` for
`ret`, and nothing else changed. -/
def Obligations.StackUnderflowExactlyWhenEmpty : Prop :=
  ∀ (i : Instr) (s : State), s.runstate = .running → s.pc.toNat ≤ 32767 →
    ∃ t, exec i s = .next t ∧
      (Takes .stackUnderflow t ↔
        Fits i s ∧ s.stack = [] ∧ ((∃ a r, i = .pop a ∧ resolveRegisterIndex a = some r) ∨ i = .ret)) ∧
      (Takes .stackUnderflow t →
        (∀ a, i = .pop a → t = faultedAt s 3#16 .stackUnderflow 0#16 2) ∧
        (i = .ret → t = faultedAt s 18#16 .stackUnderflow 0#16 1))

/-- A step that faults leaves every register, Memory word, stack word, input and output byte as it was: only `pc`, by the
number of words fetched, `runstate` and the fault record change (40_execute_loop.md section 3; 60_exceptions.md
section 3, the spec's decision D9, log entry 17). -/
def Obligations.FaultingStepChangesNoData : Prop :=
  ∀ s t : State, s.runstate = .running → step s = .next t → t.runstate = .faulted →
    ∃ fop k v n, n ≤ 4 ∧ t = faultedAt s fop k v n

/-- In Halted and in Faulted everything is frozen for as long as one waits, `out_valid` and `in_req` stay low, and
Halted is the only final state of the two. "No step" is here a step that changes nothing (log entry 3). -/
def Obligations.TerminalStatesAreFrozen : Prop :=
  ∀ s : State, s.runstate ≠ .running →
    (∀ k, Host.Core.run Sys2Proof.core k s = .next s) ∧ s.ports.out = none ∧ s.ports.inReq = false ∧
    (s.Final ↔ s.runstate ≠ .faulted)

/-- The model never stops, on any word sequence (93_implementation_defined.md, entry U5). That a fault of the machine is a
next state is the model's convention of log entry 2; that Halted and Faulted, and a stalled `in`, have a next state, the
same one, where R94 and R93 (40_execute_loop.md) say there is no step, are its conventions of log entries 3 and 4. -/
def Obligations.EveryStepIsDefined : Prop :=
  ∀ s : State, ∃ t : State, step s = .next t

/-- The run-state machine of 40_execute_loop.md section 1: a Running machine halts exactly when the word at `pc` is 0,
the opcode of `halt`; while it stays Running or halts the fault record does not change; and it enters Faulted only with
a recorded fault. -/
def Obligations.RunStateTransitions : Prop :=
  ∀ s t : State, s.runstate = .running → step s = .next t →
    (t.runstate = .halted ↔ s.pc.toNat ≤ 32767 ∧ s.mem.readWord s.pc.toNat = 0#16) ∧
    (t.runstate ≠ .faulted → t.faultRec = s.faultRec) ∧
    (t.runstate = .faulted → ∃ k, t.faultRec.fkind = some k)

/-- Frame, registers (10_state.md section 1): an instruction changes no register but the one its destination operand names;
the ten instructions without a destination change none. -/
def Obligations.OnlyDestinationRegisterChanges : Prop :=
  ∀ (i : Instr) (s t : State) (r : Reg), exec i s = .next t →
    (∀ a, destination i = some a → resolveRegisterIndex a ≠ some r) → t.reg r = s.reg r

/-- Frame, Memory (20_memory.md sections 1 and 6): `wmem` changes no byte but the two of the word at the address its operand
`a` resolves to, and none when that operand is illegal; no other instruction changes Memory. -/
def Obligations.OnlyWmemChangesMemory : Prop :=
  ∀ (i : Instr) (s t : State), exec i s = .next t →
    (∀ a b, i = .wmem a b →
      (∀ addr, resolveValue a s = some addr →
        ∀ k, k ≠ 2 * addr.toNat → k ≠ 2 * addr.toNat + 1 → t.mem.readByte k = s.mem.readByte k) ∧
      (resolveValue a s = none → t.mem = s.mem)) ∧
    ((∀ a b, i ≠ .wmem a b) → t.mem = s.mem)

/-- Frame, stack (10_state.md section 4): only `push` and `call` can make it grow, by one word on top, only `pop` and `ret`
can make it shrink, by its top word, and no other instruction changes it. -/
def Obligations.OnlyStackInstructionsChangeStack : Prop :=
  ∀ (i : Instr) (s t : State), exec i s = .next t →
    t.stack = s.stack ∨
    ((∃ a, i = .push a ∨ i = .call a) ∧ ∃ v, t.stack = v :: s.stack) ∨
    ((i = .ret ∨ ∃ a, i = .pop a) ∧ ∃ v, s.stack = v :: t.stack)

/-- Frame, console (10_state.md section 7): only `out` writes to the output, one byte at most, after those already there;
only `in` takes from the input, one byte at most. -/
def Obligations.OnlyConsoleInstructionsTouchConsole : Prop :=
  ∀ (i : Instr) (s t : State), exec i s = .next t →
    (t.output = s.output ∨ ((∃ a, i = .out a) ∧ ∃ b, t.output = s.output ++ [b])) ∧
    (t.console = s.console ∨
      ((∃ a, i = .in_ a) ∧ ∃ b, s.console.remainder = b :: t.console.remainder))

/-- The table of 10_state.md section 2: where each instruction leaves `pc` when it completes without a fault, and that a
stalled `in` leaves it (the spec's decision D12, log entry 4). -/
def Obligations.PcAfterInstruction : Prop :=
  ∀ (i : Instr) (s t : State), s.runstate = .running → Fits i s → exec i s = .next t → t.runstate ≠ .faulted →
    match i with
    | .halt => t.pc = s.pc + 1#16
    | .noop => t.pc = s.pc + 1#16
    | .ret => s.stack = t.pc :: t.stack
    | .push _ => t.pc = s.pc + 2#16
    | .pop _ => t.pc = s.pc + 2#16
    | .out _ => t.pc = s.pc + 2#16
    | .in_ _ => t.pc = if s.console.remainder = [] then s.pc else s.pc + 2#16
    | .jmp a => resolveValue a s = some t.pc
    | .call a => resolveValue a s = some t.pc ∧ t.stack = (s.pc + 2#16) :: s.stack
    | .set _ _ => t.pc = s.pc + 3#16
    | .not _ _ => t.pc = s.pc + 3#16
    | .rmem _ _ => t.pc = s.pc + 3#16
    | .wmem _ _ => t.pc = s.pc + 3#16
    | .jt a b => if resolveValue a s = some 0#16 then t.pc = s.pc + 3#16 else resolveValue b s = some t.pc
    | .jf a b => if resolveValue a s = some 0#16 then resolveValue b s = some t.pc else t.pc = s.pc + 3#16
    | .eq _ _ _ => t.pc = s.pc + 4#16
    | .gt _ _ _ => t.pc = s.pc + 4#16
    | .add _ _ _ => t.pc = s.pc + 4#16
    | .mult _ _ _ => t.pc = s.pc + 4#16
    | .mod _ _ _ => t.pc = s.pc + 4#16
    | .and _ _ _ => t.pc = s.pc + 4#16
    | .or _ _ _ => t.pc = s.pc + 4#16

/-- "The arithmetic and logic instructions `eq`, `gt`, `add`, `mult`, `and`, `or`, `not` always write a value in 0 to
32767" (10_state.md section 1; for `and` and `or` the spec's decision D4, log entry 15). -/
def Obligations.ComputedResultsAreFifteenBit : Prop :=
  ∀ (i : Instr) (s t : State) (a : Word) (r : Reg), s.runstate = .running → exec i s = .next t → t.runstate = .running →
    ((∃ b c, i = .eq a b c ∨ i = .gt a b c ∨ i = .add a b c ∨ i = .mult a b c ∨ i = .and a b c ∨ i = .or a b c) ∨
      ∃ b, i = .not a b) →
    resolveRegisterIndex a = some r → (t.reg r).toNat ≤ 32767

/-! ## Memory and stack -/

/-- A read returns the value of the latest write to that address, a write changes no other word, and a write keeps the
canonical form (20_memory.md sections 4 and 8). -/
def Obligations.ReadReturnsLatestWrite : Prop :=
  ∀ (m : Memory) (n : Nat) (v : Word), m.wf = true → n ≤ 32767 →
    (m.writeWord n v).wf = true ∧ ∀ k, (m.writeWord n v).readWord k = if k = n then v else m.readWord k

/-- Equal Memories are equal data: two canonical lists whose 32768 words agree are the same list (log entry 1). -/
def Obligations.CanonicalMemoryIsUnique : Prop :=
  ∀ m m' : Memory, m.wf = true → m'.wf = true → (∀ n, n ≤ 32767 → m.readWord n = m'.readWord n) → m = m'

/-- A store is seen by the very next fetch (20_memory.md section 9): a `wmem` to the address after its own last word makes
the stored word the opcode of the next step. -/
def Obligations.StoreIsSeenByNextFetch : Prop :=
  ∀ (a b addr v : Word) (s : State), s.runstate = .running → s.mem.wf = true → s.pc.toNat ≤ 32764 →
    resolveValue a s = some addr → resolveValue b s = some v → addr = s.pc + 3#16 →
    ∃ t, exec (.wmem a b) s = .next t ∧ t.pc = addr ∧ (fetchWindow t).head? = some v ∧
      (22 ≤ v.toNat → step t = .next (faultedAt t v .malformedOpcode v 1)) ∧
      (v = 21#16 → step t = .next { t with pc := t.pc + 1#16 })

/-- The stack law of 42_set_stack.md, on `Push` and `Pop`, which all four stack instructions use: what is pushed is popped
in reverse order, whatever was below, and popping one more than was pushed on an empty stack faults with StackUnderflow. -/
def Obligations.StackReturnsValuesInReverse : Prop :=
  ∀ (vs : List Word) (s : State), s.stack.length + vs.length ≤ 32768 →
    ∃ t, pushAll vs s = some t ∧ popAll vs.length t = some (vs.reverse, s) ∧
      (s.stack = [] → pop s = .error (.raised .stackUnderflow 0#16) s)

/-! ## The console and the boundary -/

/-- The Console Input Buffer, with its line and cursor, is the plain stream of what is left of `INPUT`: the bytes it gives in
`n` requests are the first `n` of them, so the line and the cursor never decide which byte comes next, and it has none
exactly when none is left (49_io.md section 3). Source lists with empty lines, which no `INPUT` has, meet this by log
entry 6. And in every run over an `INPUT`, finite or infinite, with `n` bytes delivered and `k` `in` instructions
completed, what is left in the console is `INPUT` from byte `k` to byte `n - 1`, so the byte the next `in` takes is byte
`k`, whenever the lines came (log entries 5, 7 and 8). What `in` does with the byte is in `InReadsNextByte`. -/
def Obligations.BufferDeliversInputInOrder : Prop :=
  (∀ (n : Nat) (c : Console), bytesRead n c = c.remainder.take n ∧ (c.next? = none ↔ c.remainder = [])) ∧
  (∀ (img : Image) (input : Input) (n k : Nat) (s : State), Runs img input n k s →
    k ≤ n ∧ (∀ j, s.console.remainder[j]? = if k + j < n then input.get? (k + j) else none) ∧
    (takesInput s = true → k < n ∧ inPort s = input.get? k))

/-- A stalled `in` (40_execute_loop.md section 4, the spec's decision D12, log entry 4): with no byte to give, the machine
stays as it is for ever; and when the source delivers a line, the same `in` completes with its first byte. -/
def Obligations.StallLastsUntilInput : Prop :=
  ∀ (a : Word) (r : Reg) (s : State), s.runstate = .running → s.pc.toNat ≤ 32766 →
    s.mem.readWord s.pc.toNat = 20#16 → s.mem.readWord (s.pc.toNat + 1) = a → resolveRegisterIndex a = some r →
    s.console.remainder = [] →
    (∀ k, Host.Core.run Sys2Proof.core k s = .next s) ∧
    (∀ b l, ∃ t, step (deliver (b :: l) s) = .next t ∧ t.reg r = BitVec.ofNat 16 b.toNat ∧ t.pc = s.pc + 2#16 ∧
      t.console.remainder = l)

/-- Splitting a finite `INPUT` into lines loses and moves no byte, makes no empty line, ends each line but the last with the
terminator, and leaves no terminator inside a line (49_io.md section 3); and booting with all of them delivered at once is
a run over that `INPUT`. The terminator's code is PRESUMED (log entry 7), the last line without one is log entry 8. -/
def Obligations.LinesKeepInputBytes : Prop :=
  ∀ bs : List Byte, (linesOf bs).flatten = bs ∧ (∀ l, l ∈ linesOf bs → l ≠ []) ∧
    (∀ l, l ∈ (linesOf bs).dropLast → l.getLast? = some Config.newline) ∧
    (∀ l, l ∈ linesOf bs → Config.newline ∉ l.dropLast) ∧
    (∀ img : Image, Runs img (.finite bs) bs.length 0 (bootBytes img bs))

/-- The image file (70_reset_and_hazards.md section 2): word `n` of Memory is `byte[2n] + 256 * byte[2n + 1]`, words beyond
the image are 0. That a stream of odd length or of more than 65536 bytes is refused is the spec's decision D13 (log
entry 19). -/
def Obligations.ImageIsLoadedLittleEndian : Prop :=
  ∀ bs : List Byte,
    (bs.length % 2 = 1 ∨ 65536 < bs.length → Image.ofBytes bs = none) ∧
    (bs.length % 2 = 0 → bs.length ≤ 65536 →
      ∃ img, Image.ofBytes bs = some img ∧ ∀ lines n, n ≤ 32767 →
        ((boot img lines).mem.readWord n).toNat =
          ((bs[2 * n]?).getD 0#8).toNat + 256 * ((bs[2 * n + 1]?).getD 0#8).toNat)

/-- `rst` in any state (70_reset_and_hazards.md section 1): everything is at its value of 10_state.md section 9, the Console
Input Buffer Empty with no line and cursor 0, Memory the image and then zeros, and the output already received stays
(log entry 10). Registers are 0 by the spec's decision D5 (log entry 9), the fault record is 0 by its decision D8 (log
entry 16). The state is legal. -/
def Obligations.ResetRestoresEverything : Prop :=
  ∀ (img : Image) (lines : List (List Byte)) (s : State),
    (applyReset img lines s).Inv ∧ (applyReset img lines s).pc = 0#16 ∧ (applyReset img lines s).runstate = .running ∧
    (applyReset img lines s).stack = [] ∧ (∀ r : Reg, (applyReset img lines s).reg r = 0#16) ∧
    (applyReset img lines s).faultRec = FaultRecord.clear ∧
    (applyReset img lines s).console.mode = .empty ∧ (applyReset img lines s).console.line = [] ∧
    (applyReset img lines s).console.cursor = 0 ∧ (applyReset img lines s).console.source = lines ∧
    (applyReset img lines s).console.remainder = lines.flatten ∧ (applyReset img lines s).output = s.output ∧
    (∀ n, n ≤ 32767 → (applyReset img lines s).mem.readWord n = (img.words[n]?).getD 0#16)

/-- The ports (10_state.md section 8, the spec's decision D14, log entry 22): the step of a cycle writes the byte `out_data`
shows while `out_valid` is high and none otherwise; `in_data`, while `in_valid` is high, is the first byte of what is left
of the input; and the step takes that byte exactly when `in_req` and `in_valid` are both high. -/
def Obligations.PortsShowWhatTheStepDoes : Prop :=
  ∀ s t : State, step s = .next t →
    t.output = s.output ++ s.ports.out.toList ∧
    inPort s = s.console.remainder.head? ∧
    t.console.remainder =
      if s.ports.inReq = true ∧ (inPort s).isSome then s.console.remainder.tail else s.console.remainder

/-- The ports tell the run states and the fault kinds apart: `run_state` is never 3, `fault_kind` is one of 0 to 7 and names
its fault, and in a legal state it is 0 exactly while the machine is not Faulted (10_state.md section 8, 60_exceptions.md
section 1; the numbers are the spec's decisions D7 and D10, log entry 16). -/
def Obligations.PortsTellStatesAndFaultsApart : Prop :=
  ∀ s t : State, s.Inv →
    s.ports.runState ≠ 3#2 ∧ s.ports.faultKind.toNat ≤ 7 ∧
    (s.ports.runState = t.ports.runState ↔ s.runstate = t.runstate) ∧
    (s.ports.faultKind = t.ports.faultKind ↔ s.faultRec.fkind = t.faultRec.fkind) ∧
    (s.ports.faultKind = 0#4 ↔ s.ports.runState ≠ 2#2)
end

