-- ==== Sys2Proof/Laws/Console.lean ====
section
/-! SUPPORT. The Console Input Buffer against the plain stream of bytes (R174, R175, 49_io.md). -/

namespace Sys2Proof.Machine.Console

theorem firstLine_none {ls : List (List Byte)} (h : firstLine ls = none) : ls.flatten = [] := by
  induction ls with
  | nil => rfl
  | cons l ls ih =>
    cases l with
    | nil => simpa using ih (by simpa [firstLine] using h)
    | cons b l => simp [firstLine] at h

theorem firstLine_some {ls : List (List Byte)} {b : Byte} {l : List Byte} {rest : List (List Byte)}
    (h : firstLine ls = some (b, l, rest)) : ls.flatten = b :: (l ++ rest.flatten) := by
  induction ls with
  | nil => simp [firstLine] at h
  | cons l' ls ih =>
    cases l' with
    | nil => simpa using ih (by simpa [firstLine] using h)
    | cons b' l' =>
      simp only [firstLine, Option.some.injEq, Prod.mk.injEq] at h
      obtain ⟨rfl, rfl, rfl⟩ := h
      rfl

/-- The byte under the cursor is the first of what is left of the line. -/
theorem current_some {c : Console} {b : Byte} (h : c.current = some b) :
    c.mode = .ready ∧ c.line.drop c.cursor = b :: c.line.drop (c.cursor + 1) := by
  unfold current at h
  cases hm : c.mode <;> simp only [hm, reduceCtorEq] at h
  obtain ⟨hlt, hb⟩ := List.getElem?_eq_some_iff.1 h
  exact ⟨rfl, by rw [List.drop_eq_getElem_cons hlt, hb]⟩

theorem current_none {c : Console} (h : c.current = none) : c.remainder = c.source.flatten := by
  unfold current at h
  unfold remainder
  cases hm : c.mode <;> simp only [hm] at h ⊢
  · rfl
  · rw [List.drop_eq_nil_of_le (List.getElem?_eq_none_iff.1 h), List.nil_append]

/-- Delivering a line adds its bytes at the end of what is left to read. -/
theorem remainder_deliver (l : List Byte) (s : State) :
    (deliver l s).console.remainder = s.console.remainder ++ l := by
  simp [deliver, remainder, List.append_assoc]

end Sys2Proof.Machine.Console

namespace Sys2Proof.Machine

/-- A line that begins where another one does is no shorter. -/
theorem Input.isLine_length_le {input : Input} {n : Nat} {l l' : List Byte} (h : input.isLine n l)
    (h' : input.isLine n l') : l'.length ≤ l.length := by
  obtain ⟨hne, hb, -, he⟩ := h
  obtain ⟨-, hb', hd', -⟩ := h'
  by_contra hlt
  rcases he with he | he
  · have hpos := List.length_pos_of_ne_nil hne
    have h1 : l'[l.length - 1]? = some Config.newline := by
      rw [← hb' _ (by omega), hb _ (by omega), ← List.getLast?_eq_getElem?, he]
    have h2 : l'.dropLast[l.length - 1]? = some Config.newline := by
      rw [List.getElem?_dropLast, if_pos (by omega), h1]
    exact hd' (List.mem_of_getElem? h2)
  · have h1 := hb' l.length (by omega)
    rw [he, List.getElem?_eq_getElem (by omega)] at h1
    cases h1

/-- At most one full line begins at a byte of `INPUT`: only when it arrives is left open. -/
theorem Input.isLine_unique {input : Input} {n : Nat} {l l' : List Byte} (h : input.isLine n l)
    (h' : input.isLine n l') : l = l' := by
  have hlen := le_antisymm (Input.isLine_length_le h' h) (Input.isLine_length_le h h')
  refine List.ext_getElem? fun k => ?_
  by_cases hk : k < l.length
  · rw [← h.2.1 k hk, ← h'.2.1 k (hlen ▸ hk)]
  · rw [List.getElem?_eq_none (by omega), List.getElem?_eq_none (by omega)]

/-- Where a terminator is still to come, a full line begins: an infinite `INPUT` with terminators without end never runs
out of lines. -/
theorem Input.exists_isLine (byte : Nat → Byte) (n d : Nat) (h : byte (n + d) = Config.newline) :
    ∃ l, (Input.infinite byte).isLine n l := by
  induction d using Nat.strong_induction_on with
  | _ d ih =>
    by_cases hd : ∃ e, e < d ∧ byte (n + e) = Config.newline
    · obtain ⟨e, he, hb⟩ := hd
      exact ih e he hb
    · refine ⟨(List.range d).map (fun k => byte (n + k)) ++ [byte (n + d)], by simp, fun k hk => ?_, ?_, .inl (by simp [h])⟩
      · simp only [List.length_append, List.length_map, List.length_range, List.length_singleton] at hk
        rcases Nat.lt_succ_iff_lt_or_eq.1 hk with hk | rfl
        · rw [List.getElem?_append_left (by simpa using hk)]
          simp [Input.get?, hk]
        · rw [List.getElem?_append_right (by simp)]
          simp [Input.get?]
      · rw [List.dropLast_concat]
        intro hm
        obtain ⟨e, he, hb⟩ := List.mem_map.1 hm
        exact hd ⟨e, List.mem_range.1 he, hb⟩

end Sys2Proof.Machine
end

