-- ==== Sys2Proof/Laws/Decode.lean ====
section
/-! SUPPORT. The decoder beside the opcode and the operand positions. -/

namespace Sys2Proof

/-- The words of an instruction are its opcode word and its operand words (R60, 30_encoding.md). -/
theorem encode_eq_opcode_operands (i : Instr) : encode i = i.opcode :: i.operands.map Prod.snd := by
  cases i <;> rfl

/-- Every opcode is 0 to 21 (R69, 30_encoding.md). -/
theorem opcode_lt (i : Instr) : i.opcode.toNat < 22 := by
  cases i <;> simp [Instr.opcode, encode]

end Sys2Proof
end

