-- ==== Sys2Proof/Laws/State.lean ====
section
/-! SUPPORT. One lemma per field per update of State, so that no proof unfolds a record update. -/

namespace Sys2Proof.Machine

variable (s : State) (i j : Reg) (v w : Word)

@[simp] theorem setReg_regs : (s.setReg i v).regs = s.regs.set i v := rfl
@[simp] theorem setReg_pc : (s.setReg i v).pc = s.pc := rfl
@[simp] theorem setReg_stack : (s.setReg i v).stack = s.stack := rfl
@[simp] theorem setReg_mem : (s.setReg i v).mem = s.mem := rfl
@[simp] theorem setReg_runstate : (s.setReg i v).runstate = s.runstate := rfl
@[simp] theorem setReg_faultRec : (s.setReg i v).faultRec = s.faultRec := rfl
@[simp] theorem setReg_console : (s.setReg i v).console = s.console := rfl
@[simp] theorem setReg_output : (s.setReg i v).output = s.output := rfl

@[simp] theorem setPc_regs : (s.setPc w).regs = s.regs := rfl
@[simp] theorem setPc_pc : (s.setPc w).pc = w := rfl
@[simp] theorem setPc_stack : (s.setPc w).stack = s.stack := rfl
@[simp] theorem setPc_mem : (s.setPc w).mem = s.mem := rfl
@[simp] theorem setPc_runstate : (s.setPc w).runstate = s.runstate := rfl
@[simp] theorem setPc_faultRec : (s.setPc w).faultRec = s.faultRec := rfl
@[simp] theorem setPc_console : (s.setPc w).console = s.console := rfl
@[simp] theorem setPc_output : (s.setPc w).output = s.output := rfl

variable (k : Fault) (a0 fop : Word)

@[simp] theorem takeFault_regs : (takeFault k v a0 fop s).regs = s.regs := rfl
@[simp] theorem takeFault_pc : (takeFault k v a0 fop s).pc = s.pc := rfl
@[simp] theorem takeFault_stack : (takeFault k v a0 fop s).stack = s.stack := rfl
@[simp] theorem takeFault_mem : (takeFault k v a0 fop s).mem = s.mem := rfl
@[simp] theorem takeFault_runstate : (takeFault k v a0 fop s).runstate = .faulted := rfl
@[simp] theorem takeFault_faultRec :
    (takeFault k v a0 fop s).faultRec = { fkind := some k, faddr := a0, fop := fop, fval := v } := rfl
@[simp] theorem takeFault_console : (takeFault k v a0 fop s).console = s.console := rfl
@[simp] theorem takeFault_output : (takeFault k v a0 fop s).output = s.output := rfl

/-- The last value of `pc` counts. -/
@[simp] theorem setPc_setPc : (s.setPc v).setPc w = s.setPc w := rfl

@[simp] theorem setPc_self : s.setPc s.pc = s := rfl

/-- `pc` is no general register (R10, 10_state.md). -/
@[simp] theorem reg_setPc : (s.setPc w).reg i = s.reg i := rfl

@[simp] theorem reg_takeFault : (takeFault k v a0 fop s).reg i = s.reg i := rfl

/-- A register reads as what was last written to it: no register is hardwired (R10, 10_state.md). -/
@[simp] theorem reg_setReg_same : (s.setReg i v).reg i = v := by
  simp [State.reg, State.setReg, Vector.get_eq_getElem]

/-- A write reaches no other register: none aliases another (R10, 10_state.md). -/
theorem reg_setReg_ne (h : j ≠ i) : (s.setReg i v).reg j = s.reg j := by
  have h' : (i : Nat) ≠ j := fun e => h (Fin.ext e.symm)
  simp [State.reg, State.setReg, Vector.get_eq_getElem, Vector.getElem_set_ne _ _ h']

end Sys2Proof.Machine
end

