-- ==== Sys2Proof/Laws/Operands.lean ====
section
/-! SUPPORT. What the primitives, the resolver and the formats can do: one lemma each, cited in place of unfolding. -/

namespace Sys2Proof.Machine

/-- A handler whose first part completes goes on from there. -/
theorem bind_ok {α β : Type} {x : Handler α} {f : α → Handler β} {s t : State} {a : α} (h : x s = .ok a t) :
    (x >>= f) s = f a t := by
  simp [bind, EStateM.bind, h]

/-- A handler whose first part ends early ends there (R91, 40_execute_loop.md). -/
theorem bind_error {α β : Type} {x : Handler α} {f : α → Handler β} {s t : State} {e : Stop} (h : x s = .error e t) :
    (x >>= f) s = .error e t := by
  simp [bind, EStateM.bind, h]

theorem pure_ok {α : Type} (a : α) (s : State) : (pure a : Handler α) s = .ok a s := rfl

theorem raise_error {α : Type} (k : Fault) (v : Word) (s : State) :
    (raise k v : Handler α) s = .error (.raised k v) s := rfl

theorem inMemory_iff (w : Word) : inMemory w = true ↔ w.toNat < 32768 := by simp [inMemory]

/-- R44 (20_memory.md), whole: a read inside Memory, or AddressOutOfRange, and nothing changes. -/
theorem memRead_spec (addr : Word) (s : State) :
    memRead addr s = if addr.toNat < 32768 then .ok (s.mem.readWord addr.toNat) s
      else .error (.raised .addressOutOfRange addr) s := by
  simp [memRead, inMemory, raise]

/-- R45 (20_memory.md), whole. -/
theorem memWrite_spec (addr v : Word) (s : State) :
    memWrite addr v s = if addr.toNat < 32768 then .ok () { s with mem := s.mem.writeWord addr.toNat v }
      else .error (.raised .addressOutOfRange addr) s := by
  simp [memWrite, inMemory, raise]

/-- R15 (10_state.md), whole. -/
theorem push_spec (v : Word) (s : State) :
    push v s = if s.stack.length = 32768 then .error (.raised .stackOverflow 0#16) s
      else .ok () { s with stack := v :: s.stack } := by
  simp [push, raise]

/-- R16 (10_state.md) on an empty stack. -/
theorem pop_nil {s : State} (h : s.stack = []) : pop s = .error (.raised .stackUnderflow 0#16) s := by
  simp [pop, h, raise]

/-- R16 (10_state.md) on a stack that holds a word. -/
theorem pop_cons {s : State} {v : Word} {vs : List Word} (h : s.stack = v :: vs) :
    pop s = .ok v { s with stack := vs } := by
  simp [pop, h]

/-- The words 32768 to 32775 refer to registers 0 to 7 (R63, 30_encoding.md). -/
theorem registerRef_some_iff (w : Word) (i : Reg) : registerRef w = some i ↔ w.toNat = 32768 + i.val := by
  have := i.isLt
  unfold registerRef
  split
  next h =>
    have hlo : 32768 ≤ w.toNat := h.1
    rw [Option.some.injEq, Fin.ext_iff]
    simp only [Config.regBase]
    omega
  next h => simp only [Config.regBase, Config.regTop, reduceCtorEq, false_iff] at *; omega

/-- No other word refers to a register (R63, 30_encoding.md). -/
theorem registerRef_none_iff (w : Word) : registerRef w = none ↔ w.toNat < 32768 ∨ 32775 < w.toNat := by
  unfold registerRef
  split
  next h =>
    have hlo : 32768 ≤ w.toNat := h.1
    have hhi : w.toNat ≤ 32775 := h.2
    simp only [reduceCtorEq, false_iff]
    omega
  next h => simp only [Config.regBase, Config.regTop, true_iff] at *; omega

/-- A literal resolves to itself (R66, 30_encoding.md). -/
theorem resolveValue_literal {w : Word} (h : w.toNat < 32768) (s : State) : resolveValue w s = some w := by
  simp [resolveValue, h]

/-- A register reference resolves to the register's whole content (R66, 30_encoding.md). -/
theorem resolveValue_register {w : Word} {i : Reg} (h : w.toNat = 32768 + i.val) (s : State) :
    resolveValue w s = some (s.reg i) := by
  simp [resolveValue, (registerRef_some_iff w i).2 h, show ¬ w.toNat < 32768 by omega]

theorem resolveValue_none_iff (w : Word) (s : State) : resolveValue w s = none ↔ 32775 < w.toNat := by
  unfold resolveValue
  by_cases h : w.toNat < 32768
  · simp [h]; omega
  · simp [h, registerRef_none_iff]

/-- The resolver looks at the register file only (R68, 30_encoding.md). -/
@[simp] theorem resolveValue_setPc (w target : Word) (s : State) : resolveValue w (s.setPc target) = resolveValue w s := rfl

theorem resolveRegisterIndex_eq (w : Word) : resolveRegisterIndex w = registerRef w := rfl

/-- The resolver's `reg` mode succeeds exactly on the words that are legal in a `reg` position. -/
theorem legal_reg_iff (w : Word) : OperandKind.legal .reg w = true ↔ ∃ i, resolveRegisterIndex w = some i := by
  rw [resolveRegisterIndex_eq, ← Option.isSome_iff_exists, Option.isSome_iff_ne_none, ne_eq, registerRef_none_iff]
  simp [OperandKind.legal]

/-- The resolver's `val` mode succeeds exactly on the words that are legal in a `val` position. -/
theorem legal_val_iff (w : Word) (s : State) : OperandKind.legal .val w = true ↔ ∃ v, resolveValue w s = some v := by
  rw [← Option.isSome_iff_exists, Option.isSome_iff_ne_none, ne_eq, resolveValue_none_iff]
  simp [OperandKind.legal]

/-- R87 (40_execute_loop.md) for an operand word, whole. -/
theorem fetchOperand_spec (w : Word) (s : State) :
    fetchOperand w s = if s.pc.toNat < 32768 then .ok w (s.setPc (s.pc + 1#16))
      else .error (.raised .addressOutOfRange s.pc) s := by
  simp [fetchOperand, inMemory, raise]

theorem fetchOperand_ok {w : Word} {s : State} (h : s.pc.toNat < 32768) :
    fetchOperand w s = .ok w (s.setPc (s.pc + 1#16)) := by
  simp [fetchOperand_spec, h]

theorem fetchOperand_error {w : Word} {s : State} (h : ¬ s.pc.toNat < 32768) :
    fetchOperand w s = .error (.raised .addressOutOfRange s.pc) s := by
  simp [fetchOperand_spec, h]

theorem getValue_spec (w : Word) (s : State) :
    getValue w s = match resolveValue w s with
      | some v => .ok v s
      | none => .error (.raised .invalidOperand w) s := rfl

theorem getIndex_spec (w : Word) (s : State) :
    getIndex w s = match resolveRegisterIndex w with
      | some i => .ok i s
      | none => .error (.raised .invalidRegisterOperand w) s := rfl

/-- R67 (30_encoding.md), whole. -/
theorem regOperand_spec (w : Word) (s : State) :
    regOperand w s =
      if s.pc.toNat < 32768 then
        match resolveRegisterIndex w with
        | some i => .ok i (s.setPc (s.pc + 1#16))
        | none => .error (.raised .invalidRegisterOperand w) (s.setPc (s.pc + 1#16))
      else .error (.raised .addressOutOfRange s.pc) s := by
  unfold regOperand
  by_cases h : s.pc.toNat < 32768
  · rw [bind_ok (fetchOperand_ok h), getIndex_spec, if_pos h]
  · rw [bind_error (fetchOperand_error h), if_neg h]

/-- R66 (30_encoding.md), whole. -/
theorem valOperand_spec (w : Word) (s : State) :
    valOperand w s =
      if s.pc.toNat < 32768 then
        match resolveValue w s with
        | some v => .ok v (s.setPc (s.pc + 1#16))
        | none => .error (.raised .invalidOperand w) (s.setPc (s.pc + 1#16))
      else .error (.raised .addressOutOfRange s.pc) s := by
  unfold valOperand
  by_cases h : s.pc.toNat < 32768
  · rw [bind_ok (fetchOperand_ok h), getValue_spec, if_pos h, resolveValue_setPc]
  · rw [bind_error (fetchOperand_error h), if_neg h]

theorem regOperand_ok {w : Word} {s : State} {i : Reg} (hpc : s.pc.toNat < 32768)
    (h : resolveRegisterIndex w = some i) : regOperand w s = .ok i (s.setPc (s.pc + 1#16)) := by
  simp [regOperand_spec, hpc, h]

theorem valOperand_ok {w v : Word} {s : State} (hpc : s.pc.toNat < 32768) (h : resolveValue w s = some v) :
    valOperand w s = .ok v (s.setPc (s.pc + 1#16)) := by
  simp [valOperand_spec, hpc, h]

variable {a b c va vb vc : Word} {i : Reg} {s : State}

/-- Format `R` with its operand in Memory and legal: the body runs with `pc` past it. -/
theorem formatR_ok {body : Reg → Handler Unit} (hpc : s.pc.toNat < 32768) (ha : resolveRegisterIndex a = some i) :
    formatR a body s = body i (s.setPc (s.pc + 1#16)) := by
  rw [formatR, bind_ok (regOperand_ok hpc ha)]

/-- Format `V` with its operand in Memory and legal. -/
theorem formatV_ok {body : Word → Handler Unit} (hpc : s.pc.toNat < 32768) (ha : resolveValue a s = some va) :
    formatV a body s = body va (s.setPc (s.pc + 1#16)) := by
  rw [formatV, bind_ok (valOperand_ok hpc ha)]

theorem pc_next {w : Word} (h : w.toNat + 1 < 32768) : (w + 1#16).toNat = w.toNat + 1 := by
  have : w.toNat < 65536 := w.isLt
  simp [BitVec.toNat_add]
  omega

/-- Format `RV` with its operands in Memory and legal. -/
theorem formatRV_ok {body : Reg → Word → Handler Unit} (hpc : s.pc.toNat + 1 < 32768)
    (ha : resolveRegisterIndex a = some i) (hb : resolveValue b s = some vb) :
    formatRV a b body s = body i vb (s.setPc (s.pc + 2#16)) := by
  rw [formatRV, bind_ok (regOperand_ok (by omega) ha),
    bind_ok (valOperand_ok (v := vb) (by simpa [pc_next hpc] using hpc) (by simpa using hb))]
  simp [BitVec.add_assoc]

/-- Format `VV` with its operands in Memory and legal. -/
theorem formatVV_ok {body : Word → Word → Handler Unit} (hpc : s.pc.toNat + 1 < 32768)
    (ha : resolveValue a s = some va) (hb : resolveValue b s = some vb) :
    formatVV a b body s = body va vb (s.setPc (s.pc + 2#16)) := by
  rw [formatVV, bind_ok (valOperand_ok (by omega) ha),
    bind_ok (valOperand_ok (v := vb) (by simpa [pc_next hpc] using hpc) (by simpa using hb))]
  simp [BitVec.add_assoc]

/-- Format `RVV` with its operands in Memory and legal. -/
theorem formatRVV_ok {body : Reg → Word → Word → Handler Unit} (hpc : s.pc.toNat + 2 < 32768)
    (ha : resolveRegisterIndex a = some i) (hb : resolveValue b s = some vb) (hc : resolveValue c s = some vc) :
    formatRVV a b c body s = body i vb vc (s.setPc (s.pc + 3#16)) := by
  have h1 : (s.pc + 1#16).toNat = s.pc.toNat + 1 := pc_next (by omega)
  have h2 : (s.pc + 1#16 + 1#16).toNat = s.pc.toNat + 2 := by rw [pc_next (by omega), h1]
  rw [formatRVV, bind_ok (regOperand_ok (by omega) ha),
    bind_ok (valOperand_ok (v := vb) (by simp; omega) (by simpa using hb)),
    bind_ok (valOperand_ok (v := vc) (by simp; omega) (by simpa using hc))]
  simp [BitVec.add_assoc]

end Sys2Proof.Machine
end

