-- ==== Sys2Proof/Laws/Handler.lean ====
section
/-! SUPPORT. What running a handler answers: either its first bad operand is taken as a fault, or its body runs on the
resolved operands. One lemma per format (R61, 30_encoding.md; R90, 40_execute_loop.md). -/

namespace Sys2Proof

/-- The fault of an illegal word in a position of this kind (R187, R188, 60_exceptions.md). -/
def OperandKind.fault : OperandKind → Machine.Fault
  | .reg => .invalidRegisterOperand
  | .val => .invalidOperand

end Sys2Proof

namespace Sys2Proof.Machine

/-- The first fault among operands that follow `n` words fetched from `pc`, in the order of R194 (60_exceptions.md): the
kind, the value recorded, and the number of words fetched by then. -/
def operandFault (pc : Word) (n : Nat) : List (OperandKind × Word) → Option (Fault × Word × Nat)
  | [] => none
  | (k, w) :: ops =>
    if (pc + BitVec.ofNat 16 n).toNat < 32768 then
      if k.legal w then operandFault pc (n + 1) ops else some (k.fault, w, n + 1)
    else some (.addressOutOfRange, pc + BitVec.ofNat 16 n, n)

@[simp] theorem finish_ok (fop : Word) (s t : State) : finish fop s (.ok () t) = .next t := rfl

@[simp] theorem finish_raised (fop v : Word) (k : Fault) (s t : State) :
    finish fop s (.error (.raised k v) t) = .next (takeFault k v s.pc fop t) := rfl

@[simp] theorem finish_stalled (fop : Word) (s t : State) : finish fop s (.error .stalled t) = .next s := rfl

/-- Running a handler always answers a next state. -/
theorem runHandler_next (fop : Word) (body : Handler Unit) (s : State) : ∃ t, runHandler fop body s = .next t := by
  unfold runHandler finish
  split <;> exact ⟨_, rfl⟩

variable (fop : Word) (s : State)

/-- The state a fault among the operands leads to, `n` words having been fetched. -/
def operandFaulted (p : Fault × Word × Nat) : State :=
  takeFault p.1 p.2.1 s.pc fop (s.setPc (s.pc + BitVec.ofNat 16 p.2.2))

/-- A handler that starts with a register operand. -/
theorem regOperand_cases (a : Word) (n : Nat) (ops : List (OperandKind × Word)) (f : Reg → Handler Unit) :
    (∃ p, operandFault s.pc n ((.reg, a) :: ops) = some p ∧
      finish fop s ((regOperand a >>= f) (s.setPc (s.pc + BitVec.ofNat 16 n))) = .next (operandFaulted fop s p)) ∨
    (operandFault s.pc n ((.reg, a) :: ops) = operandFault s.pc (n + 1) ops ∧
      ∃ i, resolveRegisterIndex a = some i ∧
        finish fop s ((regOperand a >>= f) (s.setPc (s.pc + BitVec.ofNat 16 n))) =
          finish fop s (f i (s.setPc (s.pc + BitVec.ofNat 16 (n + 1))))) := by
  have hadd : s.pc + BitVec.ofNat 16 n + 1#16 = s.pc + BitVec.ofNat 16 (n + 1) := by
    rw [BitVec.ofNat_add, BitVec.add_assoc]
  by_cases hpc : (s.pc + BitVec.ofNat 16 n).toNat < 32768
  · cases ha : resolveRegisterIndex a with
    | some i =>
      have hl : OperandKind.legal .reg a = true := (legal_reg_iff a).2 ⟨i, ha⟩
      refine .inr ⟨by simp only [operandFault, if_pos hpc, if_pos hl], i, rfl, ?_⟩
      rw [bind_ok (t := s.setPc (s.pc + BitVec.ofNat 16 (n + 1))) (a := i)]
      simp only [regOperand_spec, setPc_pc, if_pos hpc, ha, setPc_setPc, hadd]
    | none =>
      have hl : ¬ OperandKind.legal .reg a = true := fun h => by
        obtain ⟨i, hi⟩ := (legal_reg_iff a).1 h
        simp [ha] at hi
      refine .inl ⟨(.invalidRegisterOperand, a, n + 1), by simp only [operandFault, if_pos hpc, if_neg hl, OperandKind.fault], ?_⟩
      rw [bind_error (t := s.setPc (s.pc + BitVec.ofNat 16 (n + 1))) (e := .raised .invalidRegisterOperand a)]
      · rfl
      · simp only [regOperand_spec, setPc_pc, if_pos hpc, ha, setPc_setPc, hadd]
  · refine .inl ⟨(.addressOutOfRange, s.pc + BitVec.ofNat 16 n, n), by simp only [operandFault, if_neg hpc], ?_⟩
    rw [bind_error (t := s.setPc (s.pc + BitVec.ofNat 16 n)) (e := .raised .addressOutOfRange (s.pc + BitVec.ofNat 16 n))]
    · rfl
    · rw [regOperand_spec]
      exact if_neg hpc

/-- A handler that goes on with a value operand. -/
theorem valOperand_cases (a : Word) (n : Nat) (ops : List (OperandKind × Word)) (f : Word → Handler Unit) :
    (∃ p, operandFault s.pc n ((.val, a) :: ops) = some p ∧
      finish fop s ((valOperand a >>= f) (s.setPc (s.pc + BitVec.ofNat 16 n))) = .next (operandFaulted fop s p)) ∨
    (operandFault s.pc n ((.val, a) :: ops) = operandFault s.pc (n + 1) ops ∧
      ∃ v, resolveValue a s = some v ∧
        finish fop s ((valOperand a >>= f) (s.setPc (s.pc + BitVec.ofNat 16 n))) =
          finish fop s (f v (s.setPc (s.pc + BitVec.ofNat 16 (n + 1))))) := by
  have hadd : s.pc + BitVec.ofNat 16 n + 1#16 = s.pc + BitVec.ofNat 16 (n + 1) := by
    rw [BitVec.ofNat_add, BitVec.add_assoc]
  by_cases hpc : (s.pc + BitVec.ofNat 16 n).toNat < 32768
  · cases ha : resolveValue a s with
    | some v =>
      have hl : OperandKind.legal .val a = true := (legal_val_iff a s).2 ⟨v, ha⟩
      refine .inr ⟨by simp only [operandFault, if_pos hpc, if_pos hl], v, rfl, ?_⟩
      rw [bind_ok (t := s.setPc (s.pc + BitVec.ofNat 16 (n + 1))) (a := v)]
      simp only [valOperand_spec, setPc_pc, if_pos hpc, resolveValue_setPc, ha, setPc_setPc, hadd]
    | none =>
      have hl : ¬ OperandKind.legal .val a = true := fun h => by
        obtain ⟨v, hv⟩ := (legal_val_iff a s).1 h
        simp [ha] at hv
      refine .inl ⟨(.invalidOperand, a, n + 1), by simp only [operandFault, if_pos hpc, if_neg hl, OperandKind.fault], ?_⟩
      rw [bind_error (t := s.setPc (s.pc + BitVec.ofNat 16 (n + 1))) (e := .raised .invalidOperand a)]
      · rfl
      · simp only [valOperand_spec, setPc_pc, if_pos hpc, resolveValue_setPc, ha, setPc_setPc, hadd]
  · refine .inl ⟨(.addressOutOfRange, s.pc + BitVec.ofNat 16 n, n), by simp only [operandFault, if_neg hpc], ?_⟩
    rw [bind_error (t := s.setPc (s.pc + BitVec.ofNat 16 n)) (e := .raised .addressOutOfRange (s.pc + BitVec.ofNat 16 n))]
    · rfl
    · rw [valOperand_spec]
      exact if_neg hpc

variable (a b c : Word)

/-- Running a handler of format `R`. -/
theorem runHandler_formatR (body : Reg → Handler Unit) :
    (∃ p, operandFault s.pc 1 [(.reg, a)] = some p ∧
      runHandler fop (formatR a body) s = .next (operandFaulted fop s p)) ∨
    (operandFault s.pc 1 [(.reg, a)] = none ∧ ∃ i, resolveRegisterIndex a = some i ∧
      runHandler fop (formatR a body) s = finish fop s (body i (s.setPc (s.pc + 2#16)))) := by
  rcases regOperand_cases fop s a 1 [] body with h | ⟨h, i, hi, e⟩
  · exact .inl h
  · exact .inr ⟨h, i, hi, e⟩

/-- Running a handler of format `V`. -/
theorem runHandler_formatV (body : Word → Handler Unit) :
    (∃ p, operandFault s.pc 1 [(.val, a)] = some p ∧
      runHandler fop (formatV a body) s = .next (operandFaulted fop s p)) ∨
    (operandFault s.pc 1 [(.val, a)] = none ∧ ∃ va, resolveValue a s = some va ∧
      runHandler fop (formatV a body) s = finish fop s (body va (s.setPc (s.pc + 2#16)))) := by
  rcases valOperand_cases fop s a 1 [] body with h | ⟨h, v, hv, e⟩
  · exact .inl h
  · exact .inr ⟨h, v, hv, e⟩

/-- Running a handler of format `RV`. -/
theorem runHandler_formatRV (body : Reg → Word → Handler Unit) :
    (∃ p, operandFault s.pc 1 [(.reg, a), (.val, b)] = some p ∧
      runHandler fop (formatRV a b body) s = .next (operandFaulted fop s p)) ∨
    (operandFault s.pc 1 [(.reg, a), (.val, b)] = none ∧
      ∃ i vb, resolveRegisterIndex a = some i ∧ resolveValue b s = some vb ∧
        runHandler fop (formatRV a b body) s = finish fop s (body i vb (s.setPc (s.pc + 3#16)))) := by
  rcases regOperand_cases fop s a 1 [(.val, b)] (fun i => valOperand b >>= fun vb => body i vb) with h | ⟨h, i, hi, e⟩
  · exact .inl h
  · rcases valOperand_cases fop s b 2 [] (body i) with ⟨p, hp, e'⟩ | ⟨h', vb, hb, e'⟩
    · exact .inl ⟨p, h.trans hp, e.trans e'⟩
    · exact .inr ⟨h.trans h', i, vb, hi, hb, e.trans e'⟩

/-- Running a handler of format `VV`. -/
theorem runHandler_formatVV (body : Word → Word → Handler Unit) :
    (∃ p, operandFault s.pc 1 [(.val, a), (.val, b)] = some p ∧
      runHandler fop (formatVV a b body) s = .next (operandFaulted fop s p)) ∨
    (operandFault s.pc 1 [(.val, a), (.val, b)] = none ∧
      ∃ va vb, resolveValue a s = some va ∧ resolveValue b s = some vb ∧
        runHandler fop (formatVV a b body) s = finish fop s (body va vb (s.setPc (s.pc + 3#16)))) := by
  rcases valOperand_cases fop s a 1 [(.val, b)] (fun i => valOperand b >>= fun vb => body i vb) with h | ⟨h, i, hi, e⟩
  · exact .inl h
  · rcases valOperand_cases fop s b 2 [] (body i) with ⟨p, hp, e'⟩ | ⟨h', vb, hb, e'⟩
    · exact .inl ⟨p, h.trans hp, e.trans e'⟩
    · exact .inr ⟨h.trans h', i, vb, hi, hb, e.trans e'⟩

/-- Running a handler of format `RVV`. -/
theorem runHandler_formatRVV (body : Reg → Word → Word → Handler Unit) :
    (∃ p, operandFault s.pc 1 [(.reg, a), (.val, b), (.val, c)] = some p ∧
      runHandler fop (formatRVV a b c body) s = .next (operandFaulted fop s p)) ∨
    (operandFault s.pc 1 [(.reg, a), (.val, b), (.val, c)] = none ∧
      ∃ i vb vc, resolveRegisterIndex a = some i ∧ resolveValue b s = some vb ∧ resolveValue c s = some vc ∧
        runHandler fop (formatRVV a b c body) s = finish fop s (body i vb vc (s.setPc (s.pc + 4#16)))) := by
  rcases regOperand_cases fop s a 1 [(.val, b), (.val, c)]
      (fun i => valOperand b >>= fun vb => valOperand c >>= fun vc => body i vb vc) with h | ⟨h, i, hi, e⟩
  · exact .inl h
  · rcases valOperand_cases fop s b 2 [(.val, c)] (fun vb => valOperand c >>= fun vc => body i vb vc)
      with ⟨p, hp, e'⟩ | ⟨h', vb, hb, e'⟩
    · exact .inl ⟨p, h.trans hp, e.trans e'⟩
    · rcases valOperand_cases fop s c 3 [] (body i vb) with ⟨p, hp, e''⟩ | ⟨h'', vc, hc, e''⟩
      · exact .inl ⟨p, (h.trans h').trans hp, (e.trans e').trans e''⟩
      · exact .inr ⟨(h.trans h').trans h'', i, vb, vc, hi, hb, hc, (e.trans e').trans e''⟩

end Sys2Proof.Machine
end

