-- ==== Sys2Proof/Laws/Exec.lean ====
section
/-! SUPPORT. What executing an instruction can do, said once: it takes the fault of its first bad operand, or it ends in one
of the ways of `Ends`. -/

namespace Sys2Proof.Machine

theorem inByte_some {s : State} {b : Byte} {c : Console} (h : s.console.next? = some (b, c)) :
    inByte s = .ok b { s with console := c } := by
  simp [inByte, h]

theorem inByte_none {s : State} (h : s.console.next? = none) : inByte s = .error .stalled s := by
  simp [inByte, h]

/-- The ways an instruction with its operands in Memory and legal ends: its effect, the fault of its own check, or a
stall. -/
inductive Ends : Instr → State → State → Prop
  | halt (s : State) : Ends .halt s { s with runstate := .halted, pc := s.pc + 1#16 }
  | noop (s : State) : Ends .noop s { s with pc := s.pc + 1#16 }
  | set {a b v : Word} {r : Reg} {s : State} (ha : resolveRegisterIndex a = some r) (hb : resolveValue b s = some v) :
      Ends (.set a b) s { s with regs := s.regs.set r v, pc := s.pc + 3#16 }
  | push {a v : Word} {s : State} (ha : resolveValue a s = some v) (hd : s.stack.length ≠ 32768) :
      Ends (.push a) s { s with stack := v :: s.stack, pc := s.pc + 2#16 }
  | pushFull {a v : Word} {s : State} (ha : resolveValue a s = some v) (hd : s.stack.length = 32768) :
      Ends (.push a) s (operandFaulted 2#16 s (.stackOverflow, 0#16, 2))
  | pop {a v : Word} {vs : List Word} {r : Reg} {s : State} (ha : resolveRegisterIndex a = some r)
      (hs : s.stack = v :: vs) :
      Ends (.pop a) s { s with stack := vs, regs := s.regs.set r v, pc := s.pc + 2#16 }
  | popEmpty {a : Word} {r : Reg} {s : State} (ha : resolveRegisterIndex a = some r) (hs : s.stack = []) :
      Ends (.pop a) s (operandFaulted 3#16 s (.stackUnderflow, 0#16, 2))
  | jmp {a t : Word} {s : State} (ha : resolveValue a s = some t) : Ends (.jmp a) s { s with pc := t }
  | jt {a b v t : Word} {s : State} (ha : resolveValue a s = some v) (hb : resolveValue b s = some t) :
      Ends (.jt a b) s { s with pc := if v = 0#16 then s.pc + 3#16 else t }
  | jf {a b v t : Word} {s : State} (ha : resolveValue a s = some v) (hb : resolveValue b s = some t) :
      Ends (.jf a b) s { s with pc := if v = 0#16 then t else s.pc + 3#16 }
  | modZero {a b c vb : Word} {r : Reg} {s : State} (ha : resolveRegisterIndex a = some r)
      (hb : resolveValue b s = some vb) (hc : resolveValue c s = some 0#16) :
      Ends (.mod a b c) s (operandFaulted 11#16 s (.divisionByZero, 0#16, 4))
  | not {a b v : Word} {r : Reg} {s : State} (ha : resolveRegisterIndex a = some r) (hb : resolveValue b s = some v) :
      Ends (.not a b) s { s with regs := s.regs.set r (notWord v), pc := s.pc + 3#16 }
  | rmem {a b addr : Word} {r : Reg} {s : State} (ha : resolveRegisterIndex a = some r)
      (hb : resolveValue b s = some addr) (hm : addr.toNat < 32768) :
      Ends (.rmem a b) s { s with regs := s.regs.set r (s.mem.readWord addr.toNat), pc := s.pc + 3#16 }
  | rmemBeyond {a b addr : Word} {r : Reg} {s : State} (ha : resolveRegisterIndex a = some r)
      (hb : resolveValue b s = some addr) (hm : ¬ addr.toNat < 32768) :
      Ends (.rmem a b) s (operandFaulted 15#16 s (.addressOutOfRange, addr, 3))
  | wmem {a b addr v : Word} {s : State} (ha : resolveValue a s = some addr) (hb : resolveValue b s = some v)
      (hm : addr.toNat < 32768) :
      Ends (.wmem a b) s { s with mem := s.mem.writeWord addr.toNat v, pc := s.pc + 3#16 }
  | wmemBeyond {a b addr v : Word} {s : State} (ha : resolveValue a s = some addr) (hb : resolveValue b s = some v)
      (hm : ¬ addr.toNat < 32768) :
      Ends (.wmem a b) s (operandFaulted 16#16 s (.addressOutOfRange, addr, 3))
  | call {a t : Word} {s : State} (ha : resolveValue a s = some t) (hd : s.stack.length ≠ 32768) :
      Ends (.call a) s { s with stack := (s.pc + 2#16) :: s.stack, pc := t }
  | callFull {a t : Word} {s : State} (ha : resolveValue a s = some t) (hd : s.stack.length = 32768) :
      Ends (.call a) s (operandFaulted 17#16 s (.stackOverflow, 0#16, 2))
  | ret {t : Word} {vs : List Word} {s : State} (hs : s.stack = t :: vs) : Ends .ret s { s with stack := vs, pc := t }
  | retEmpty {s : State} (hs : s.stack = []) : Ends .ret s (operandFaulted 18#16 s (.stackUnderflow, 0#16, 1))
  | out {a v : Word} {s : State} (ha : resolveValue a s = some v) :
      Ends (.out a) s { s with output := s.output ++ [lowByte v], pc := s.pc + 2#16 }
  | in_ {a : Word} {r : Reg} {s : State} {b : Byte} {c : Console} (ha : resolveRegisterIndex a = some r)
      (hc : s.console.next? = some (b, c)) :
      Ends (.in_ a) s { s with console := c, regs := s.regs.set r (zext16 b), pc := s.pc + 2#16 }
  | inStalled {a : Word} {r : Reg} {s : State} (ha : resolveRegisterIndex a = some r) (hc : s.console.next? = none) :
      Ends (.in_ a) s s
  | eq {a b c vb vc : Word} {r : Reg} {s : State} (ha : resolveRegisterIndex a = some r)
      (hb : resolveValue b s = some vb) (hc : resolveValue c s = some vc) :
      Ends (.eq a b c) s { s with regs := s.regs.set r (eqWord vb vc), pc := s.pc + 4#16 }
  | gt {a b c vb vc : Word} {r : Reg} {s : State} (ha : resolveRegisterIndex a = some r)
      (hb : resolveValue b s = some vb) (hc : resolveValue c s = some vc) :
      Ends (.gt a b c) s { s with regs := s.regs.set r (gtWord vb vc), pc := s.pc + 4#16 }
  | add {a b c vb vc : Word} {r : Reg} {s : State} (ha : resolveRegisterIndex a = some r)
      (hb : resolveValue b s = some vb) (hc : resolveValue c s = some vc) :
      Ends (.add a b c) s { s with regs := s.regs.set r (addWord vb vc), pc := s.pc + 4#16 }
  | mult {a b c vb vc : Word} {r : Reg} {s : State} (ha : resolveRegisterIndex a = some r)
      (hb : resolveValue b s = some vb) (hc : resolveValue c s = some vc) :
      Ends (.mult a b c) s { s with regs := s.regs.set r (multWord vb vc), pc := s.pc + 4#16 }
  | mod {a b c vb vc : Word} {r : Reg} {s : State} (ha : resolveRegisterIndex a = some r)
      (hb : resolveValue b s = some vb) (hc : resolveValue c s = some vc) (hz : vc ≠ 0#16) :
      Ends (.mod a b c) s { s with regs := s.regs.set r (modWord vb vc), pc := s.pc + 4#16 }
  | and {a b c vb vc : Word} {r : Reg} {s : State} (ha : resolveRegisterIndex a = some r)
      (hb : resolveValue b s = some vb) (hc : resolveValue c s = some vc) :
      Ends (.and a b c) s { s with regs := s.regs.set r (andWord vb vc), pc := s.pc + 4#16 }
  | or {a b c vb vc : Word} {r : Reg} {s : State} (ha : resolveRegisterIndex a = some r)
      (hb : resolveValue b s = some vb) (hc : resolveValue c s = some vc) :
      Ends (.or a b c) s { s with regs := s.regs.set r (orWord vb vc), pc := s.pc + 4#16 }

variable (s : State) (a b c : Word)

/-- What executing `i` answers: the fault of its first bad operand, or an end of `Ends`. -/
def Answers (i : Instr) (s : State) : Prop :=
  (∃ p, operandFault s.pc 1 i.operands = some p ∧ exec i s = .next (operandFaulted i.opcode s p)) ∨
    (operandFault s.pc 1 i.operands = none ∧ ∃ t, Ends i s t ∧ exec i s = .next t)

/-- An instruction of format `RVV` whose body writes one word to its destination. -/
theorem answers_of_writes {i : Instr} {f : Word → Word → Word}
    (hops : i.operands = [(.reg, a), (.val, b), (.val, c)])
    (hexec : exec i s = runHandler i.opcode (formatRVV a b c fun r vb vc => writeReg r (f vb vc)) s)
    (hends : ∀ r vb vc, resolveRegisterIndex a = some r → resolveValue b s = some vb → resolveValue c s = some vc →
      Ends i s { s with regs := s.regs.set r (f vb vc), pc := s.pc + 4#16 }) : Answers i s := by
  unfold Answers
  rw [hexec, hops]
  rcases runHandler_formatRVV i.opcode s a b c fun r vb vc => writeReg r (f vb vc) with h | ⟨h, r, vb, vc, ha, hb, hc, e⟩
  · exact .inl h
  · exact .inr ⟨h, _, hends r vb vc ha hb hc, e⟩

theorem answers_halt : Answers .halt s := .inr ⟨rfl, _, .halt s, rfl⟩

theorem answers_noop : Answers .noop s := .inr ⟨rfl, _, .noop s, rfl⟩

theorem answers_set : Answers (.set a b) s := by
  rcases runHandler_formatRV 1#16 s a b fun i vb => writeReg i vb with h | ⟨h, r, v, ha, hb, e⟩
  · exact .inl h
  · exact .inr ⟨h, _, .set ha hb, e⟩

theorem answers_push : Answers (.push a) s := by
  rcases runHandler_formatV 2#16 s a fun va => push va with h | ⟨h, v, ha, e⟩
  · exact .inl h
  · rw [push_spec, setPc_stack] at e
    by_cases hd : s.stack.length = 32768
    · exact .inr ⟨h, _, .pushFull ha hd, e.trans (by rw [if_pos hd]; rfl)⟩
    · exact .inr ⟨h, _, .push ha hd, e.trans (by rw [if_neg hd]; rfl)⟩

theorem answers_pop : Answers (.pop a) s := by
  rcases runHandler_formatR 3#16 s a (fun i => pop >>= fun v => writeReg i v) with h | ⟨h, r, ha, e⟩
  · exact .inl h
  · cases hs : s.stack with
    | nil => exact .inr ⟨h, _, .popEmpty ha hs, e.trans (by rw [bind_error (pop_nil (by simpa using hs))]; rfl)⟩
    | cons v vs => exact .inr ⟨h, _, .pop ha hs, e.trans (by rw [bind_ok (pop_cons (by simpa using hs))]; rfl)⟩

theorem answers_jmp : Answers (.jmp a) s := by
  rcases runHandler_formatV 6#16 s a fun t => jumpTo t with h | ⟨h, t, ha, e⟩
  · exact .inl h
  · exact .inr ⟨h, _, .jmp ha, e⟩

theorem answers_jt : Answers (.jt a b) s := by
  rcases runHandler_formatVV 7#16 s a b fun va t => if isTrue va then jumpTo t else pure () with h | ⟨h, v, t, ha, hb, e⟩
  · exact .inl h
  · refine .inr ⟨h, _, .jt ha hb, e.trans ?_⟩
    by_cases hv : v = 0#16 <;> simp [isTrue, hv, jumpTo, pure_ok, State.setPc]

theorem answers_jf : Answers (.jf a b) s := by
  rcases runHandler_formatVV 8#16 s a b fun va t => if isTrue va then pure () else jumpTo t with h | ⟨h, v, t, ha, hb, e⟩
  · exact .inl h
  · refine .inr ⟨h, _, .jf ha hb, e.trans ?_⟩
    by_cases hv : v = 0#16 <;> simp [isTrue, hv, jumpTo, pure_ok, State.setPc]

theorem answers_mod : Answers (.mod a b c) s := by
  rcases runHandler_formatRVV 11#16 s a b c fun i vb vc =>
      if vc = 0#16 then raise .divisionByZero 0#16 else writeReg i (modWord vb vc) with h | ⟨h, r, vb, vc, ha, hb, hc, e⟩
  · exact .inl h
  · by_cases hz : vc = 0#16
    · subst hz
      exact .inr ⟨h, _, .modZero ha hb hc, e⟩
    · exact .inr ⟨h, _, .mod ha hb hc hz, e.trans (by rw [if_neg hz]; rfl)⟩

theorem answers_not : Answers (.not a b) s := by
  rcases runHandler_formatRV 14#16 s a b fun i vb => writeReg i (notWord vb) with h | ⟨h, r, v, ha, hb, e⟩
  · exact .inl h
  · exact .inr ⟨h, _, .not ha hb, e⟩

theorem answers_rmem : Answers (.rmem a b) s := by
  rcases runHandler_formatRV 15#16 s a b (fun i addr => memRead addr >>= fun v => writeReg i v)
    with h | ⟨h, r, addr, ha, hb, e⟩
  · exact .inl h
  · by_cases hm : addr.toNat < 32768
    · exact .inr ⟨h, _, .rmem ha hb hm, e.trans (by rw [bind_ok ((memRead_spec _ _).trans (if_pos hm))]; rfl)⟩
    · exact .inr ⟨h, _, .rmemBeyond ha hb hm,
        e.trans (by rw [bind_error ((memRead_spec _ _).trans (if_neg hm))]; rfl)⟩

theorem answers_wmem : Answers (.wmem a b) s := by
  rcases runHandler_formatVV 16#16 s a b fun addr v => memWrite addr v with h | ⟨h, addr, v, ha, hb, e⟩
  · exact .inl h
  · rw [memWrite_spec] at e
    by_cases hm : addr.toNat < 32768
    · exact .inr ⟨h, _, .wmem ha hb hm, e.trans (by rw [if_pos hm]; rfl)⟩
    · exact .inr ⟨h, _, .wmemBeyond ha hb hm, e.trans (by rw [if_neg hm]; rfl)⟩

theorem answers_call : Answers (.call a) s := by
  rcases runHandler_formatV 17#16 s a (fun t => getPc >>= fun ra => push ra >>= fun _ => jumpTo t) with h | ⟨h, t, ha, e⟩
  · exact .inl h
  · replace e := e.trans (congrArg (finish 17#16 s)
      (bind_ok (show getPc (s.setPc (s.pc + 2#16)) = .ok (s.pc + 2#16) (s.setPc (s.pc + 2#16)) from rfl)))
    by_cases hd : s.stack.length = 32768
    · exact .inr ⟨h, _, .callFull ha hd, e.trans (congrArg (finish 17#16 s) (bind_error ((push_spec _ (s.setPc (s.pc + 2#16))).trans (if_pos hd))))⟩
    · exact .inr ⟨h, _, .call ha hd, e.trans (congrArg (finish 17#16 s) (bind_ok ((push_spec _ (s.setPc (s.pc + 2#16))).trans (if_neg hd))))⟩

theorem answers_ret : Answers .ret s := by
  have e : exec .ret s = finish 18#16 s ((pop >>= fun t => jumpTo t) (s.setPc (s.pc + 1#16))) := rfl
  cases hs : s.stack with
  | nil => exact .inr ⟨rfl, _, .retEmpty hs, e.trans (by rw [bind_error (pop_nil (by simpa using hs))]; rfl)⟩
  | cons v vs => exact .inr ⟨rfl, _, .ret hs, e.trans (by rw [bind_ok (pop_cons (by simpa using hs))]; rfl)⟩

theorem answers_out : Answers (.out a) s := by
  rcases runHandler_formatV 19#16 s a fun v => outByte (lowByte v) with h | ⟨h, v, ha, e⟩
  · exact .inl h
  · exact .inr ⟨h, _, .out ha, e⟩

theorem answers_in : Answers (.in_ a) s := by
  rcases runHandler_formatR 20#16 s a (fun i => inByte >>= fun ch => writeReg i (zext16 ch)) with h | ⟨h, r, ha, e⟩
  · exact .inl h
  · cases hc : s.console.next? with
    | none => exact .inr ⟨h, _, .inStalled ha hc, e.trans (by rw [bind_error (inByte_none (by simpa using hc))]; rfl)⟩
    | some p =>
      obtain ⟨ch, con⟩ := p
      exact .inr ⟨h, _, .in_ ha hc, e.trans (by rw [bind_ok (inByte_some (by simpa using hc))]; rfl)⟩

/-- What executing any instruction in any state can do. -/
theorem exec_answers (i : Instr) : Answers i s := by
  cases i with
  | halt => exact answers_halt s
  | set a b => exact answers_set s a b
  | push a => exact answers_push s a
  | pop a => exact answers_pop s a
  | eq a b c => exact answers_of_writes s a b c rfl rfl fun _ _ _ ha hb hc => .eq ha hb hc
  | gt a b c => exact answers_of_writes s a b c rfl rfl fun _ _ _ ha hb hc => .gt ha hb hc
  | jmp a => exact answers_jmp s a
  | jt a b => exact answers_jt s a b
  | jf a b => exact answers_jf s a b
  | add a b c => exact answers_of_writes s a b c rfl rfl fun _ _ _ ha hb hc => .add ha hb hc
  | mult a b c => exact answers_of_writes s a b c rfl rfl fun _ _ _ ha hb hc => .mult ha hb hc
  | mod a b c => exact answers_mod s a b c
  | and a b c => exact answers_of_writes s a b c rfl rfl fun _ _ _ ha hb hc => .and ha hb hc
  | or a b c => exact answers_of_writes s a b c rfl rfl fun _ _ _ ha hb hc => .or ha hb hc
  | not a b => exact answers_not s a b
  | rmem a b => exact answers_rmem s a b
  | wmem a b => exact answers_wmem s a b
  | call a => exact answers_call s a
  | ret => exact answers_ret s
  | out a => exact answers_out s a
  | in_ a => exact answers_in s a
  | noop => exact answers_noop s

/-- If executing `i` answers `t`, then `t` is the fault of a bad operand or an end of `Ends`. -/
theorem exec_next {i : Instr} {s t : State} (h : exec i s = .next t) :
    (∃ p, operandFault s.pc 1 i.operands = some p ∧ t = operandFaulted i.opcode s p) ∨
      (operandFault s.pc 1 i.operands = none ∧ Ends i s t) := by
  rcases exec_answers s i with ⟨p, hp, e⟩ | ⟨hn, u, hu, e⟩
  · rw [e] at h
    cases h
    exact .inl ⟨p, hp, rfl⟩
  · rw [e] at h
    cases h
    exact .inr ⟨hn, hu⟩

end Sys2Proof.Machine
end

