-- ==== Sys2Proof/Laws/Memory.lean ====
section
/-! SUPPORT. The laws of Memory: a read gives what was last written, a write leaves every other place alone, and every
write keeps the canonical form. -/

namespace Sys2Proof.Machine.Memory

theorem wfFrom_mono {lo lo' : Nat} (h : lo' ≤ lo) {m : Memory} (hm : wfFrom lo m = true) : wfFrom lo' m = true := by
  cases m with
  | nil => rfl
  | cons e m =>
    obtain ⟨k, v⟩ := e
    simp only [wfFrom, Bool.and_eq_true, decide_eq_true_eq] at hm ⊢
    exact ⟨⟨⟨by omega, hm.1.1.2⟩, hm.1.2⟩, hm.2⟩

/-- Below its first key a canonical list reads as 0. -/
theorem readByte_below {lo a : Nat} (h : a < lo) {m : Memory} (hm : wfFrom lo m = true) : m.readByte a = 0#8 := by
  induction m generalizing lo with
  | nil => rfl
  | cons e m ih =>
    obtain ⟨k, v⟩ := e
    simp only [wfFrom, Bool.and_eq_true, decide_eq_true_eq] at hm
    have hne : a ≠ k := by omega
    simpa [readByte, hne] using ih (by omega) hm.2

/-- A cell write leaves every other cell alone, in any list. -/
theorem readByte_writeByte_ne {a b : Nat} (h : b ≠ a) (v : Byte) (m : Memory) :
    (m.writeByte a v).readByte b = m.readByte b := by
  induction m with
  | nil => by_cases hv : v = 0#8 <;> simp [writeByte, readByte, hv, h]
  | cons e m ih =>
    obtain ⟨k, w⟩ := e
    by_cases hv : v = 0#8 <;> rcases lt_trichotomy a k with hk | rfl | hk <;>
      simp_all [writeByte, readByte, not_lt_of_gt, ne_of_gt]

/-- A cell reads as what was last written to it. -/
theorem readByte_writeByte_same {lo a : Nat} {m : Memory} (hm : wfFrom lo m = true) (v : Byte) :
    (m.writeByte a v).readByte a = v := by
  induction m generalizing lo with
  | nil => by_cases hv : v = 0#8 <;> simp [writeByte, readByte, hv]
  | cons e m ih =>
    obtain ⟨k, w⟩ := e
    simp only [wfFrom, Bool.and_eq_true, decide_eq_true_eq] at hm
    rcases lt_trichotomy a k with hk | rfl | hk
    · by_cases hv : v = 0#8
      · subst hv
        have := readByte_below (a := a) (lo := k + 1) (by omega) hm.2
        simp [writeByte, readByte, hk, ne_of_lt hk, this]
      · simp [writeByte, readByte, hk, hv]
    · by_cases hv : v = 0#8
      · subst hv
        simpa [writeByte] using readByte_below (a := a) (lo := a + 1) (by omega) hm.2
      · simp [writeByte, readByte, hv]
    · simp [writeByte, readByte, not_lt_of_gt hk, ne_of_gt hk, ih hm.2]

/-- A cell write inside Memory keeps the canonical form. -/
theorem wfFrom_writeByte {lo a : Nat} (hlo : lo ≤ a) (ha : a < 65536) (v : Byte) {m : Memory}
    (hm : wfFrom lo m = true) : wfFrom lo (m.writeByte a v) = true := by
  induction m generalizing lo with
  | nil => by_cases hv : v = 0#8 <;> simp [writeByte, wfFrom, hv, hlo, ha]
  | cons e m ih =>
    obtain ⟨k, w⟩ := e
    have hm' := hm
    simp only [wfFrom, Bool.and_eq_true, decide_eq_true_eq] at hm'
    rcases lt_trichotomy a k with hk | rfl | hk
    · by_cases hv : v = 0#8
      · simpa [writeByte, hk, hv] using hm
      · simp only [writeByte, hk, hv, if_true, if_false, wfFrom, Bool.and_eq_true, decide_eq_true_eq, Config.memWords]
        exact ⟨⟨⟨hlo, by omega⟩, hv⟩, ⟨⟨by omega, hm'.1.1.2⟩, hm'.1.2⟩, hm'.2⟩
    · by_cases hv : v = 0#8
      · simpa [writeByte, hv] using wfFrom_mono (by omega) hm'.2
      · simp only [writeByte, lt_irrefl, hv, if_true, if_false, wfFrom, Bool.and_eq_true, decide_eq_true_eq,
          Config.memWords]
        exact ⟨⟨⟨hlo, by omega⟩, hv⟩, hm'.2⟩
    · simp only [writeByte, not_lt_of_gt hk, ne_of_gt hk, if_false, wfFrom, Bool.and_eq_true, decide_eq_true_eq]
      exact ⟨hm'.1, ih (by omega) hm'.2⟩

/-- Canonical lists that read alike are the same list. -/
theorem eq_of_readByte {lo : Nat} {m m' : Memory} (hm : wfFrom lo m = true) (hm' : wfFrom lo m' = true)
    (h : ∀ a, m.readByte a = m'.readByte a) : m = m' := by
  induction m generalizing lo m' with
  | nil =>
    cases m' with
    | nil => rfl
    | cons e m' =>
      obtain ⟨k, v⟩ := e
      simp only [wfFrom, Bool.and_eq_true, decide_eq_true_eq] at hm'
      exact absurd (h k).symm (by simpa [readByte] using hm'.1.2)
  | cons e m ih =>
    obtain ⟨k, v⟩ := e
    simp only [wfFrom, Bool.and_eq_true, decide_eq_true_eq] at hm
    cases m' with
    | nil => exact absurd (h k) (by simpa [readByte] using hm.1.2)
    | cons e' m' =>
      obtain ⟨k', v'⟩ := e'
      simp only [wfFrom, Bool.and_eq_true, decide_eq_true_eq] at hm'
      have hk : k = k' := by
        rcases lt_trichotomy k k' with hlt | heq | hgt
        · have h0 := h k
          rw [show readByte ((k', v') :: m') k = 0#8 by
            simpa [readByte, ne_of_lt hlt] using readByte_below (a := k) (lo := k' + 1) (by omega) hm'.2] at h0
          exact absurd h0 (by simpa [readByte] using hm.1.2)
        · exact heq
        · have h0 := (h k').symm
          rw [show readByte ((k, v) :: m) k' = 0#8 by
            simpa [readByte, ne_of_lt hgt] using readByte_below (a := k') (lo := k + 1) (by omega) hm.2] at h0
          exact absurd h0 (by simpa [readByte] using hm'.1.2)
      subst hk
      have hv : v = v' := by simpa [readByte] using h k
      subst hv
      congr 1
      refine ih hm.2 hm'.2 fun a => ?_
      by_cases ha : a = k
      · subst ha
        rw [readByte_below (lo := a + 1) (by omega) hm.2, readByte_below (lo := a + 1) (by omega) hm'.2]
      · simpa [readByte, ha] using h a

/-- The two bytes of a word are the whole word. -/
theorem bytes_of_word (v : Word) :
    BitVec.ofNat 16 ((BitVec.ofNat 8 v.toNat).toNat + 256 * (BitVec.ofNat 8 (v.toNat / 256)).toNat) = v := by
  have := v.isLt
  apply BitVec.eq_of_toNat_eq
  simp only [BitVec.toNat_ofNat]
  omega

/-- A word read has both its bytes. -/
theorem readWord_toNat (m : Memory) (n : Nat) :
    (m.readWord n).toNat = (m.readByte (2 * n)).toNat + 256 * (m.readByte (2 * n + 1)).toNat := by
  have h0 := (m.readByte (2 * n)).isLt
  have h1 := (m.readByte (2 * n + 1)).isLt
  simp only [readWord, BitVec.toNat_ofNat]
  omega

/-- A word write changes its own two cells only. -/
theorem readByte_writeWord_ne {n b : Nat} (h0 : b ≠ 2 * n) (h1 : b ≠ 2 * n + 1) (v : Word) (m : Memory) :
    (m.writeWord n v).readByte b = m.readByte b := by
  simp [writeWord, readByte_writeByte_ne h0, readByte_writeByte_ne h1]

/-- A word write leaves every other word alone, in any list. -/
theorem readWord_writeWord_ne {n k : Nat} (h : k ≠ n) (v : Word) (m : Memory) :
    (m.writeWord n v).readWord k = m.readWord k := by
  unfold readWord
  rw [readByte_writeWord_ne (by omega) (by omega), readByte_writeWord_ne (by omega) (by omega)]

theorem wf_writeWord {n : Nat} (hn : n < 32768) (v : Word) {m : Memory} (hm : m.wf = true) :
    (m.writeWord n v).wf = true :=
  wfFrom_writeByte (by omega) (by omega) _ (wfFrom_writeByte (by omega) (by omega) _ hm)

/-- A word reads as what was last written to it. -/
theorem readWord_writeWord_same {n : Nat} (hn : n < 32768) (v : Word) {m : Memory} (hm : m.wf = true) :
    (m.writeWord n v).readWord n = v := by
  have h1 := wfFrom_writeByte (lo := 0) (a := 2 * n) (by omega) (by omega) (BitVec.ofNat 8 v.toNat) hm
  unfold readWord writeWord
  rw [readByte_writeByte_same h1, readByte_writeByte_ne (by omega), readByte_writeByte_same hm, bytes_of_word]

theorem wf_writeWords (vs : List Word) : ∀ (n : Nat) {m : Memory}, m.wf = true → (m.writeWords n vs).wf = true := by
  induction vs with
  | nil => exact fun _ _ hm => hm
  | cons v vs ih =>
    intro n m hm
    by_cases hn : n < 32768
    · simpa [writeWords, hn] using ih (n + 1) (wf_writeWord hn v hm)
    · simpa [writeWords, hn] using hm

/-- Writing consecutive words from `n` up leaves the words below `n` alone. -/
theorem readWord_writeWords_below (vs : List Word) :
    ∀ {n k : Nat}, k < n → ∀ m : Memory, (m.writeWords n vs).readWord k = m.readWord k := by
  induction vs with
  | nil => exact fun _ _ => rfl
  | cons v vs ih =>
    intro n k hk m
    by_cases hn : n < 32768
    · simpa [writeWords, hn, readWord_writeWord_ne (n := n) (k := k) (by omega)] using ih (n := n + 1) (k := k) (by omega) (m.writeWord n v)
    · simp [writeWords, hn]

/-- Consecutive words read back where Memory has them, and as before beyond them. -/
theorem readWord_writeWords (vs : List Word) :
    ∀ (n k : Nat) {m : Memory}, m.wf = true → n + k < 32768 →
      (m.writeWords n vs).readWord (n + k) = (vs[k]?).getD (m.readWord (n + k)) := by
  induction vs with
  | nil => exact fun _ _ _ _ _ => rfl
  | cons v vs ih =>
    intro n k m hm hk
    have hn : n < 32768 := by omega
    cases k with
    | zero =>
      simpa [writeWords, hn, readWord_writeWord_same hn v hm] using
        readWord_writeWords_below vs (n := n + 1) (k := n) (by omega) (m.writeWord n v)
    | succ k =>
      have h := ih (n + 1) k (wf_writeWord hn v hm) (by omega)
      rw [show n + 1 + k = n + (k + 1) by omega, readWord_writeWord_ne (by omega)] at h
      simpa [writeWords, hn] using h

end Sys2Proof.Machine.Memory
end

