-- ==== Sys2Proof/Laws/PerInstr.lean ====
section
/-! SUPPORT. Statements made of every instruction, one lemma per constructor. -/

namespace Sys2Proof.Laws.EncodeLength

/-- "Instruction length is exactly `1 + operand count` words" (R60, 30_encoding.md): the encoding is one opcode word below
22 and one word per operand position, 1 to 4 words in all. -/
def Statement (i : Instr) : Prop :=
  (encode i).length = 1 + i.operands.length ∧ (encode i).length ≤ 4 ∧ i.opcode.toNat < 22

theorem halt : Statement .halt := by
  simp [Statement, encode, Instr.operands, Instr.opcode]
theorem set (a b : Word) : Statement (.set a b) := by
  simp [Statement, encode, Instr.operands, Instr.opcode]
theorem push (a : Word) : Statement (.push a) := by
  simp [Statement, encode, Instr.operands, Instr.opcode]
theorem pop (a : Word) : Statement (.pop a) := by
  simp [Statement, encode, Instr.operands, Instr.opcode]
theorem eq (a b c : Word) : Statement (.eq a b c) := by
  simp [Statement, encode, Instr.operands, Instr.opcode]
theorem gt (a b c : Word) : Statement (.gt a b c) := by
  simp [Statement, encode, Instr.operands, Instr.opcode]
theorem jmp (a : Word) : Statement (.jmp a) := by
  simp [Statement, encode, Instr.operands, Instr.opcode]
theorem jt (a b : Word) : Statement (.jt a b) := by
  simp [Statement, encode, Instr.operands, Instr.opcode]
theorem jf (a b : Word) : Statement (.jf a b) := by
  simp [Statement, encode, Instr.operands, Instr.opcode]
theorem add (a b c : Word) : Statement (.add a b c) := by
  simp [Statement, encode, Instr.operands, Instr.opcode]
theorem mult (a b c : Word) : Statement (.mult a b c) := by
  simp [Statement, encode, Instr.operands, Instr.opcode]
theorem mod (a b c : Word) : Statement (.mod a b c) := by
  simp [Statement, encode, Instr.operands, Instr.opcode]
theorem and (a b c : Word) : Statement (.and a b c) := by
  simp [Statement, encode, Instr.operands, Instr.opcode]
theorem or (a b c : Word) : Statement (.or a b c) := by
  simp [Statement, encode, Instr.operands, Instr.opcode]
theorem not (a b : Word) : Statement (.not a b) := by
  simp [Statement, encode, Instr.operands, Instr.opcode]
theorem rmem (a b : Word) : Statement (.rmem a b) := by
  simp [Statement, encode, Instr.operands, Instr.opcode]
theorem wmem (a b : Word) : Statement (.wmem a b) := by
  simp [Statement, encode, Instr.operands, Instr.opcode]
theorem call (a : Word) : Statement (.call a) := by
  simp [Statement, encode, Instr.operands, Instr.opcode]
theorem ret : Statement .ret := by
  simp [Statement, encode, Instr.operands, Instr.opcode]
theorem out (a : Word) : Statement (.out a) := by
  simp [Statement, encode, Instr.operands, Instr.opcode]
theorem in_ (a : Word) : Statement (.in_ a) := by
  simp [Statement, encode, Instr.operands, Instr.opcode]
theorem noop : Statement .noop := by
  simp [Statement, encode, Instr.operands, Instr.opcode]

end Sys2Proof.Laws.EncodeLength
end

