-- ==== Sys2Proof/Tests/Slice0.lean ====
section
/-! SUPPORT. Small tests, and witnesses that the hypotheses of the statements can be met.

The expected words and results are those of spec/30_encoding.md (R61, R69) and spec/95_test_vectors.md, worked out there
from the rules, not taken from this model. -/

open Sys2Proof Sys2Proof.Machine Sys2Proof.Spec

namespace Sys2Proof.Tests

/-- The machine after reset with these words in Memory from address 0 (95_test_vectors.md, "from reset"). -/
def start (ws : List Word) : State := { State.reset with mem := Memory.writeWords [] 0 ws }

/-- The next state, if the step gives one. -/
def after (s : State) : Option State :=
  match step s with
  | .next t => some t
  | .fault _ => none
  | .refused _ => none

/-- Register `r` and `pc` after one step. -/
def regPc (r : Reg) (s : State) : Option (Word × Word) := (after s).map fun t => (t.reg r, t.pc)

/-- The run state, the fault record and `pc` after one step. -/
def record (s : State) : Option (RunState × FaultRecord × Word) := (after s).map fun t => (t.runstate, t.faultRec, t.pc)

/-- What `record` shows after a fault. -/
def faulted (k : Fault) (addr op val pc : Word) : Option (RunState × FaultRecord × Word) :=
  some (.faulted, { fkind := some k, faddr := addr, fop := op, fval := val }, pc)

/-- The stack at its capacity. -/
def full (s : State) : State := { s with stack := List.replicate 32768 0#16 }

/-- The console with these lines delivered. -/
def withLines (ls : List (List Byte)) (s : State) : State := { s with console := { s.console with source := ls } }

/-! ## Well-formedness: each check refuses an ill-formed term -/

theorem wf_accepts_legal : (Instr.set 0x8007#16 0x8007#16).wf = true ∧ (Instr.push 0x7FFF#16).wf = true := by decide

/-- A literal in a register position (R67). -/
theorem wf_refuses_literal_destination : (Instr.set 0x7FFF#16 0#16).wf = false := by decide

/-- A word above 32775 in a register position (R67). -/
theorem wf_refuses_register_above_seven : (Instr.pop 0x8008#16).wf = false := by decide

/-- A word above 32775 in a value position (R66). -/
theorem wf_refuses_value_above_range : (Instr.push 0x8008#16).wf = false := by decide

/-! ## Decoding: a word of every instruction, bit by bit from the table of R69 -/

theorem decode_halt : decode [0b0000000000000000#16] = .ok (.halt, []) := by decide

theorem decode_set :
    decode [0b0000000000000001#16, 0b1000000000000001#16, 0b0000010011010010#16] =
      .ok (.set 32769#16 1234#16, []) := by decide

theorem decode_push : decode [0b0000000000000010#16, 0b0000000000000101#16] = .ok (.push 5#16, []) := by decide

theorem decode_pop : decode [0b0000000000000011#16, 0b1000000000000111#16] = .ok (.pop 32775#16, []) := by decide

theorem decode_eq :
    decode [0b0000000000000100#16, 0b1000000000000000#16, 0b0000000000000101#16, 0b0000000000000110#16] =
      .ok (.eq 32768#16 5#16 6#16, []) := by decide

theorem decode_gt :
    decode [0b0000000000000101#16, 0b1000000000000010#16, 0b0000000000001001#16, 0b1000000000000011#16] =
      .ok (.gt 32770#16 9#16 32771#16, []) := by decide

theorem decode_jmp : decode [0b0000000000000110#16, 0b0000000001100100#16] = .ok (.jmp 100#16, []) := by decide

theorem decode_jt :
    decode [0b0000000000000111#16, 0b0000000000000001#16, 0b0000000001100100#16] =
      .ok (.jt 1#16 100#16, []) := by decide

theorem decode_jf :
    decode [0b0000000000001000#16, 0b1000000000000000#16, 0b0000000000010001#16] =
      .ok (.jf 32768#16 17#16, []) := by decide

theorem decode_add :
    decode [0b0000000000001001#16, 0b1000000000000000#16, 0b0000000000000100#16, 0b1000000000000001#16] =
      .ok (.add 32768#16 4#16 32769#16, []) := by decide

theorem decode_mult :
    decode [0b0000000000001010#16, 0b1000000000000101#16, 0b0000000010110101#16, 0b0000000010110110#16] =
      .ok (.mult 32773#16 181#16 182#16, []) := by decide

theorem decode_mod :
    decode [0b0000000000001011#16, 0b1000000000000000#16, 0b0000000000000111#16, 0b0000000000000011#16] =
      .ok (.mod 32768#16 7#16 3#16, []) := by decide

theorem decode_and :
    decode [0b0000000000001100#16, 0b1000000000000000#16, 0b0101010101010101#16, 0b0011001100110011#16] =
      .ok (.and 32768#16 21845#16 13107#16, []) := by decide

theorem decode_or :
    decode [0b0000000000001101#16, 0b1000000000000110#16, 0b0101010101010101#16, 0b0010101010101010#16] =
      .ok (.or 32774#16 21845#16 10922#16, []) := by decide

theorem decode_not :
    decode [0b0000000000001110#16, 0b1000000000000000#16, 0b0011000000111001#16] =
      .ok (.not 32768#16 12345#16, []) := by decide

theorem decode_rmem :
    decode [0b0000000000001111#16, 0b1000000000000001#16, 0b0111111111111111#16] =
      .ok (.rmem 32769#16 32767#16, []) := by decide

theorem decode_wmem :
    decode [0b0000000000010000#16, 0b0000000001100100#16, 0b0000000000000111#16] =
      .ok (.wmem 100#16 7#16, []) := by decide

theorem decode_call : decode [0b0000000000010001#16, 0b0000000001100100#16] = .ok (.call 100#16, []) := by decide

theorem decode_ret : decode [0b0000000000010010#16] = .ok (.ret, []) := by decide

theorem decode_out : decode [0b0000000000010011#16, 0b0000000001000001#16] = .ok (.out 65#16, []) := by decide

theorem decode_in : decode [0b0000000000010100#16, 0b1000000000000100#16] = .ok (.in_ 32772#16, []) := by decide

theorem decode_noop : decode [0b0000000000010101#16] = .ok (.noop, []) := by decide

/-- The word after the last opcode, a byte-swapped `set`, a register word and the greatest word (R70; section 2.2). -/
theorem decode_rejects_malformed :
    decode [22#16] = .error (.malformedOpcode 22#16) ∧ decode [256#16] = .error (.malformedOpcode 256#16) ∧
      decode [32768#16] = .error (.malformedOpcode 32768#16) ∧ decode [65535#16] = .error (.malformedOpcode 65535#16) := by
  decide

/-- `add r0, 4, 5` as the opcode table numbers its 64 bits: word 0 lowest. -/
theorem decode_table_word_add : decodeTableWord 64 0x0005000480000009 = some (.add 32768#16 4#16 5#16) := by decide

theorem decode_table_word_in : decodeTableWord 32 0x80000014 = some (.in_ 32768#16) := by decide

theorem decode_table_word_refuses : decodeTableWord 16 22 = none := by decide

/-! ## One step of each instruction (95_test_vectors.md, the section in brackets) -/

/-- (2.2) -/
theorem test_halt : (after (start [])).map (fun t => (t.runstate, t.pc)) = some (.halted, 1#16) := by decide

/-- (2.2) -/
theorem test_noop : (after (start [21#16])).map (fun t => (t.runstate, t.pc)) = some (.running, 1#16) := by decide

/-- (S8) -/
theorem test_malformed : record (start [22#16]) = faulted .malformedOpcode 0#16 22#16 22#16 1#16 := by decide

/-- (2.4) -/
theorem test_set_keeps_bit_15 :
    regPc 1 ((start [1#16, 32769#16, 32768#16]).setReg 0 40000#16) = some (40000#16, 3#16) := by decide

/-- (2.4) -/
theorem test_set_first_operand_fails_first :
    record (start [1#16, 5#16, 32776#16]) = faulted .invalidRegisterOperand 0#16 1#16 5#16 2#16 := by decide

/-- (2.4) -/
theorem test_push :
    (after ((start [2#16, 32770#16]).setReg 2 65535#16)).map (fun t => (t.stack, t.pc)) =
      some ([65535#16], 2#16) := by
  decide

/-- (2.4) -/
theorem test_push_invalid :
    record (start [2#16, 32776#16]) = faulted .invalidOperand 0#16 2#16 32776#16 2#16 := by decide

/-- (2.4) -/
theorem test_pop :
    (after { start [3#16, 32769#16] with stack := [3#16, 2#16, 1#16] }).map (fun t => (t.reg 1, t.stack, t.pc)) =
      some (3#16, [2#16, 1#16], 2#16) := by decide

/-- (2.4)  -/
theorem test_pop_checks_operand_before_stack :
    record (start [3#16, 32767#16]) = faulted .invalidRegisterOperand 0#16 3#16 32767#16 2#16 := by decide

/-- (2.5) -/
theorem test_eq_reads_before_write :
    regPc 0 ((start [4#16, 32768#16, 32768#16, 9#16]).setReg 0 9#16) = some (1#16, 4#16) := by decide

/-- (2.5) -/
theorem test_eq_whole_words :
    regPc 0 ((start [4#16, 32768#16, 32769#16, 0#16]).setReg 1 32768#16) = some (0#16, 4#16) := by decide

/-- (2.5) -/
theorem test_gt_unsigned :
    regPc 0 ((start [5#16, 32768#16, 32769#16, 32767#16]).setReg 1 40000#16) = some (1#16, 4#16) := by decide

/-- (2.5) -/
theorem test_gt_strict : regPc 0 (start [5#16, 32768#16, 5#16, 5#16]) = some (0#16, 4#16) := by decide

/-- (2.6) -/
theorem test_jmp_unchecked_target :
    (after ((start [6#16, 32768#16]).setReg 0 40000#16)).map (fun t => (t.pc, t.runstate)) =
      some (40000#16, .running) := by
  decide

/-- (2.6) -/
theorem test_jmp_beyond_memory_faults_next :
    ((after ((start [6#16, 32768#16]).setReg 0 40000#16)).bind record) =
      faulted .addressOutOfRange 40000#16 0#16 40000#16 40000#16 := by
  decide

/-- (2.6) -/
theorem test_jt_whole_condition :
    (after ((start [7#16, 32768#16, 100#16]).setReg 0 32768#16)).map State.pc = some 100#16 := by decide

/-- (2.6) -/
theorem test_jt_validates_untaken_target :
    record (start [7#16, 0#16, 40000#16]) = faulted .invalidOperand 0#16 7#16 40000#16 3#16 := by decide

/-- (2.6) -/
theorem test_jf_taken :
    (after ((start [8#16, 32768#16, 32769#16]).setReg 1 50#16)).map State.pc = some 50#16 := by decide

/-- (2.6) -/
theorem test_jf_not_taken : (after (start [8#16, 1#16, 100#16])).map State.pc = some 3#16 := by decide

/-- (2.7) -/
theorem test_add_wide_inputs :
    regPc 0 ((start [9#16, 32768#16, 32769#16, 32769#16]).setReg 1 65535#16) = some (32766#16, 4#16) := by decide

/-- (2.7) -/
theorem test_add_source_is_destination :
    regPc 0 ((start [9#16, 32768#16, 32768#16, 1#16]).setReg 0 32767#16) = some (0#16, 4#16) := by decide

/-- (2.7) -/
theorem test_mult_needs_thirty_two_bits :
    regPc 0 ((start [10#16, 32768#16, 32769#16, 32769#16]).setReg 1 65535#16) = some (1#16, 4#16) := by decide

/-- (2.7) -/
theorem test_mult_wraps : regPc 0 (start [10#16, 32768#16, 182#16, 182#16]) = some (356#16, 4#16) := by decide

/-- (2.7) -/
theorem test_mod_wide_inputs :
    regPc 0 (((start [11#16, 32768#16, 32769#16, 32770#16]).setReg 1 50000#16).setReg 2 40000#16) =
      some (10000#16, 4#16) := by
  decide

/-- (2.7) -/
theorem test_mod_zero :
    (record ((start [11#16, 32768#16, 5#16, 0#16]).setReg 0 9#16),
      regPc 0 ((start [11#16, 32768#16, 5#16, 0#16]).setReg 0 9#16)) =
      (faulted .divisionByZero 0#16 11#16 0#16 4#16, some (9#16, 4#16)) := by decide

/-- (2.8) -/
theorem test_and : regPc 0 (start [12#16, 32768#16, 21845#16, 13107#16]) = some (4369#16, 4#16) := by decide

/-- (2.8, decision D4) -/
theorem test_and_masks_bit_15 :
    regPc 0 (((start [12#16, 32768#16, 32769#16, 32770#16]).setReg 1 65535#16).setReg 2 40000#16) =
      some (7232#16, 4#16) := by
  decide

/-- (2.8) -/
theorem test_or : regPc 0 (start [13#16, 32768#16, 21845#16, 13107#16]) = some (30583#16, 4#16) := by decide

/-- (2.8, decision D4) -/
theorem test_or_masks_bit_15 :
    regPc 0 ((start [13#16, 32768#16, 32769#16, 1#16]).setReg 1 40000#16) = some (7233#16, 4#16) := by decide

/-- (2.8) -/
theorem test_not : regPc 0 (start [14#16, 32768#16, 12345#16]) = some (20422#16, 3#16) := by decide

/-- (2.8) -/
theorem test_not_wide_input :
    regPc 0 ((start [14#16, 32768#16, 32769#16]).setReg 1 40000#16) = some (25535#16, 3#16) := by decide

/-- (2.9) -/
theorem test_rmem_own_operand_word : regPc 0 (start [15#16, 32768#16, 1#16]) = some (32768#16, 3#16) := by decide

/-- (2.9) -/
theorem test_rmem_beyond_memory :
    record ((start [15#16, 32768#16, 32768#16]).setReg 0 40000#16) =
      faulted .addressOutOfRange 0#16 15#16 40000#16 3#16 := by
  decide

/-- (2.9) -/
theorem test_wmem_last_word :
    (after (start [16#16, 32767#16, 21#16])).map (fun t => (t.mem.readWord 32767, t.pc)) = some (21#16, 3#16) := by
  decide

/-- (2.9) -/
theorem test_wmem_own_operand_word :
    (after (start [16#16, 1#16, 21#16])).map State.mem = some (start [16#16, 21#16, 21#16]).mem := by decide

/-- (2.10) -/
theorem test_call :
    (after ((start [17#16, 32768#16]).setReg 0 300#16)).map (fun t => (t.stack, t.pc)) = some ([2#16], 300#16) := by
  decide

/-- (2.10) -/
theorem test_call_invalid :
    record (start [17#16, 32776#16]) = faulted .invalidOperand 0#16 17#16 32776#16 2#16 := by decide

/-- (2.10) -/
theorem test_ret :
    (after { start [18#16] with stack := [40000#16, 1#16] }).map (fun t => (t.stack, t.pc, t.runstate)) =
      some ([1#16], 40000#16, .running) := by decide

/-- (2.10) -/
theorem test_ret_underflow : record (start [18#16]) = faulted .stackUnderflow 0#16 18#16 0#16 1#16 := by decide

/-- (2.11) -/
theorem test_out_low_byte :
    (after ((start [19#16, 32768#16]).setReg 0 4673#16)).map (fun t => (t.output, t.pc)) = some ([0x41#8], 2#16) := by
  decide

/-- (2.11) -/
theorem test_in_zero_extends :
    regPc 0 (withLines [[255#8]] (start [20#16, 32768#16])) = some (255#16, 2#16) := by decide

/-- (2.11) -/
theorem test_in_waits : after (start [20#16, 32768#16]) = some (start [20#16, 32768#16]) := by decide

/-- (2.12): `jmp` at 32767, its operand would be at 32768. -/
theorem test_opcode_at_top_operand_beyond :
    record { start [] with mem := Memory.writeWord [] 32767 6#16, pc := 32767#16 } =
      faulted .addressOutOfRange 32767#16 6#16 32768#16 32768#16 := by decide

/-- (2.12): `call 100` at 32766. -/
theorem test_call_at_top_pushes_32768 :
    (after { start [] with mem := Memory.writeWords [] 32766 [17#16, 100#16], pc := 32766#16 }).map
      (fun t => (t.stack, t.pc)) = some ([32768#16], 100#16) := by decide

/-- The image bytes of program P1, little-endian, and their first word (section 3). -/
theorem test_image_bytes :
    wordsOfBytes [0x13#8, 0#8, 0#8, 0x80#8] = some [19#16, 32768#16] ∧ wordsOfBytes [1#8] = none := by decide

/-- What the host's probe does: the placed instruction is decoded and run as the first one after reset. -/
theorem test_with_fetch_word :
    regPc 0 (State.reset.withFetchWord 64 0x0005000480000009) = some (9#16, 4#16) := by decide

/-! ## Witnesses: for each statement with hypotheses, a state and operands that meet them all, at the edges -/

/-- The machine after reset, `pc` elsewhere, with these words there. -/
def placed (pc : Word) (ws : List Word) : State :=
  { State.reset with pc := pc, mem := Memory.writeWords [] pc.toNat ws }

/-- A machine with a word above 32767 in register 7 and two words on the stack. -/
def busy (pc : Word) : State := { (placed pc []).setReg 7 40000#16 with stack := [7#16, 9#16] }

theorem step_of_after {s t : State} (h : after s = some t) : step s = .next t := by
  unfold after at h
  split at h
  · next e => rw [e, Option.some.inj h]
  · cases h
  · cases h

theorem length_full (s : State) : (full s).stack.length = 32768 := List.length_replicate ..

theorem legal_start (ws : List Word) : (start ws).mem.wf = true → (start ws).Inv :=
  fun h => ⟨h, Nat.zero_le _, by simp [start, State.reset, FaultRecord.clear], rfl, rfl⟩

theorem witness_DecodeAgreesWithEncode :
    decode [1#16, 32775#16, 65535#16, 9#16] = .ok (.set 32775#16 65535#16, [9#16]) ∧
      [1#16, 32775#16, 65535#16, 9#16] = encode (.set 32775#16 65535#16) ++ [9#16] := by decide

theorem witness_DecoderRejectsExactlyMalformedOpcodes :
    22 ≤ (22#16).toNat ∧ 22 ≤ (65535#16).toNat ∧ (21#16).toNat ≤ 21 ∧ (0#16).toNat ≤ 21 := by decide

theorem witness_StepKeepsInv :
    (start [16#16, 32767#16, 21#16]).Inv ∧ (∃ t, step (start [16#16, 32767#16, 21#16]) = .next t) ∧
      (start [22#16]).Inv ∧ (∃ t, step (start [22#16]) = .next t) :=
  ⟨legal_start _ (by decide), ⟨_, rfl⟩, legal_start _ (by decide), ⟨_, rfl⟩⟩

/-- A `call` whose last word is the last of Memory; and a `jmp` at 32767, whose operand Memory does not have. -/
theorem witness_StepRunsDecodedInstruction :
    (let s := placed 32766#16 [17#16, 100#16]
     s.runstate = .running ∧ s.pc.toNat ≤ 32767 ∧
       ∀ k w, (encode (.call 100#16))[k]? = some w → s.pc.toNat + k ≤ 32767 →
         s.mem.readWord (s.pc.toNat + k) = w) ∧
      (let s := placed 32767#16 [6#16]
       s.runstate = .running ∧ s.pc.toNat ≤ 32767 ∧ ¬ Fits (.jmp 100#16) s ∧
         ∀ k w, (encode (.jmp 100#16))[k]? = some w → s.pc.toNat + k ≤ 32767 →
           s.mem.readWord (s.pc.toNat + k) = w) := by
  refine ⟨⟨rfl, by decide, ?_⟩, rfl, by decide, by decide, ?_⟩
  · rintro (_ | _ | k) w h _
    · cases h; decide
    · cases h; decide
    · simp [encode] at h
  · rintro (_ | k) w h hk
    · cases h; decide
    · exact absurd hk (by simp only [placed, BitVec.toNat_ofNat]; omega)

/-- A `jmp` at 32767: Memory has no word for its operand. -/
theorem witness_WordsBeyondMemoryAreUnused :
    (placed 32767#16 []).pc.toNat ≤ 32767 ∧ (Instr.jmp 5#16).opcode = (Instr.jmp 7#16).opcode ∧
      (∀ k, (placed 32767#16 []).pc.toNat + 1 + k ≤ 32767 →
        (Instr.jmp 5#16).operands[k]? = (Instr.jmp 7#16).operands[k]?) ∧ Instr.jmp 5#16 ≠ Instr.jmp 7#16 := by
  refine ⟨by decide, by decide, fun k h => ?_, by decide⟩
  exact absurd h (by simp only [placed, BitVec.toNat_ofNat]; omega)

theorem witness_OpcodeFetchBeyondMemoryFaults :
    (placed 32768#16 []).runstate = .running ∧ 32768 ≤ (placed 32768#16 []).pc.toNat ∧
      32768 ≤ (placed 65535#16 []).pc.toNat := by decide

theorem witness_MalformedOpcodeFaults :
    (let s := placed 32767#16 [22#16]
     s.runstate = .running ∧ s.pc.toNat ≤ 32767 ∧ 22 ≤ (s.mem.readWord s.pc.toNat).toNat) ∧
      ∃ t, exec (.push 32776#16) (start []) = .next t ∧ (start []).runstate = .running ∧ t.runstate = .faulted :=
  ⟨by decide, _, rfl, rfl, rfl⟩

theorem witness_PlacedInstructionRunsNext :
    (placed 32764#16 []).mem.wf = true ∧ (placed 32764#16 []).pc.toNat ≤ 32764 ∧
      decodeTableWord 64 0x0005000480000009 = some (.add 32768#16 4#16 5#16) := by decide

theorem witness_ResolverModes :
    (busy 32767#16).pc.toNat ≤ 32767 ∧ (32767#16).toNat < 32768 ∧ (32768#16).toNat = 32768 + (0 : Reg).val ∧
      (32775#16).toNat = 32768 + (7 : Reg).val ∧ 32775 < (32776#16).toNat ∧ 32775 < (65535#16).toNat := by decide

/-- The last operand the first illegal one, at the end of Memory; and one that Memory does not have. -/
theorem witness_InvalidOperandFaults :
    (busy 32764#16).runstate = .running ∧ (busy 32764#16).pc.toNat ≤ 32767 ∧
      firstIllegal 1 ((Instr.add 32768#16 1#16 32776#16).operands.take (32767 - (busy 32764#16).pc.toNat)) =
        some (.invalidOperand, 32776#16, 4) ∧
      (∃ t, exec (.add 32768#16 1#16 32776#16) (busy 32764#16) = .next t ∧ Takes .invalidOperand t) ∧
      (∃ t, exec (.add 32768#16 1#16 32775#16) (busy 32764#16) = .next t ∧ ¬ Takes .invalidOperand t) ∧
      (busy 32767#16).pc.toNat ≤ 32767 ∧
      ∃ t, exec (.jmp 32776#16) (busy 32767#16) = .next t ∧ ¬ Takes .invalidOperand t :=
  ⟨rfl, by decide, by decide, ⟨_, rfl, rfl, rfl⟩, ⟨_, rfl, by decide⟩, by decide, _, rfl, by decide⟩

/-- The words beside the register words, a register word, and an operand that Memory does not have. -/
theorem witness_InvalidRegisterOperandFaults :
    (busy 32766#16).runstate = .running ∧ (busy 32766#16).pc.toNat + 1 ≤ 32767 ∧
      destination (.pop 32767#16) = some 32767#16 ∧
      (∃ t, exec (.pop 32767#16) (busy 32766#16) = .next t ∧ Takes .invalidRegisterOperand t) ∧
      (∃ t, exec (.pop 32776#16) (busy 32766#16) = .next t ∧ Takes .invalidRegisterOperand t) ∧
      (∃ t, exec (.pop 32768#16) (busy 32766#16) = .next t ∧ ¬ Takes .invalidRegisterOperand t) ∧
      (busy 32767#16).pc.toNat ≤ 32767 ∧
      ∃ t, exec (.pop 32767#16) (busy 32767#16) = .next t ∧ ¬ Takes .invalidRegisterOperand t :=
  ⟨rfl, by decide, rfl, ⟨_, rfl, rfl, rfl⟩, ⟨_, rfl, rfl, rfl⟩, ⟨_, rfl, by decide⟩, by decide, _, rfl, by decide⟩

/-- An operand at 32768, all before it legal; and an illegal one before the end of Memory. -/
theorem witness_OperandFetchBeyondMemoryFaults :
    let s := busy 32766#16
    s.pc.toNat ≤ 32767 ∧ 32767 < s.pc.toNat + (Instr.set 32768#16 5#16).operands.length ∧
      firstIllegal 1 ((Instr.set 32768#16 5#16).operands.take (32767 - s.pc.toNat)) = none ∧
      firstIllegal 1 ((Instr.set 5#16 5#16).operands.take (32767 - s.pc.toNat)) =
        some (.invalidRegisterOperand, 5#16, 2) := by decide

theorem witness_SetCopiesWholeValue :
    Fits (.set 32775#16 32775#16) (busy 32765#16) ∧ resolveRegisterIndex 32775#16 = some 7 ∧
      resolveValue 32775#16 (busy 32765#16) = some 40000#16 ∧
      firstIllegal 1 (Instr.set 32775#16 32776#16).operands = some (.invalidOperand, 32776#16, 3) := by decide

theorem witness_PushPutsValueOnTop :
    Fits (.push 32775#16) (busy 32766#16) ∧ resolveValue 32775#16 (busy 32766#16) = some 40000#16 ∧
      (busy 32766#16).stack.length ≠ 32768 ∧ Fits (.push 32775#16) (full (busy 32766#16)) ∧
      resolveValue 32775#16 (full (busy 32766#16)) = some 40000#16 ∧ (full (busy 32766#16)).stack.length = 32768 ∧
      firstIllegal 1 (Instr.push 32776#16).operands = some (.invalidOperand, 32776#16, 2) :=
  ⟨by decide, by decide, by decide, by decide, by decide, length_full _, by decide⟩

theorem witness_PopMovesTopToRegister :
    Fits (.pop 32775#16) (busy 32766#16) ∧ resolveRegisterIndex 32775#16 = some 7 ∧
      (busy 32766#16).stack = 7#16 :: [9#16] ∧ (placed 32766#16 []).stack = [] ∧
      Fits (.pop 32775#16) (placed 32766#16 []) ∧
      firstIllegal 1 (Instr.pop 32776#16).operands = some (.invalidRegisterOperand, 32776#16, 2) := by decide

theorem witness_EqWritesOneOrZero :
    Fits (.eq 32775#16 32775#16 32775#16) (busy 32764#16) ∧ resolveRegisterIndex 32775#16 = some 7 ∧
      resolveValue 32775#16 (busy 32764#16) = some 40000#16 ∧
      resolveValue 32775#16 (busy 32764#16) = some 40000#16 ∧
      firstIllegal 1 (Instr.eq 32775#16 32775#16 32776#16).operands = some (.invalidOperand, 32776#16, 4) := by decide

theorem witness_GtComparesUnsigned :
    Fits (.gt 32775#16 32775#16 32775#16) (busy 32764#16) ∧ resolveRegisterIndex 32775#16 = some 7 ∧
      resolveValue 32775#16 (busy 32764#16) = some 40000#16 ∧
      resolveValue 32775#16 (busy 32764#16) = some 40000#16 ∧
      firstIllegal 1 (Instr.gt 32775#16 32775#16 32776#16).operands = some (.invalidOperand, 32776#16, 4) := by decide

theorem witness_JmpSetsPc :
    Fits (.jmp 32775#16) (busy 32766#16) ∧ resolveValue 32775#16 (busy 32766#16) = some 40000#16 ∧
      firstIllegal 1 (Instr.jmp 32776#16).operands = some (.invalidOperand, 32776#16, 2) := by decide

theorem witness_JtJumpsOnNonzero :
    Fits (.jt 32775#16 32775#16) (busy 32765#16) ∧ resolveValue 32775#16 (busy 32765#16) = some 40000#16 ∧
      resolveValue 32775#16 (busy 32765#16) = some 40000#16 ∧
      firstIllegal 1 (Instr.jt 32775#16 32776#16).operands = some (.invalidOperand, 32776#16, 3) := by decide

theorem witness_JfJumpsOnZero :
    Fits (.jf 0#16 32775#16) (busy 32765#16) ∧ resolveValue 0#16 (busy 32765#16) = some 0#16 ∧
      resolveValue 32775#16 (busy 32765#16) = some 40000#16 ∧
      firstIllegal 1 (Instr.jf 0#16 32776#16).operands = some (.invalidOperand, 32776#16, 3) := by decide

theorem witness_AddWrapsModulo32768 :
    Fits (.add 32775#16 32775#16 32775#16) (busy 32764#16) ∧ resolveRegisterIndex 32775#16 = some 7 ∧
      resolveValue 32775#16 (busy 32764#16) = some 40000#16 ∧
      resolveValue 32775#16 (busy 32764#16) = some 40000#16 ∧
      firstIllegal 1 (Instr.add 32775#16 32775#16 32776#16).operands = some (.invalidOperand, 32776#16, 4) := by decide

theorem witness_MultWrapsModulo32768 :
    Fits (.mult 32775#16 32775#16 32775#16) (busy 32764#16) ∧ resolveRegisterIndex 32775#16 = some 7 ∧
      resolveValue 32775#16 (busy 32764#16) = some 40000#16 ∧
      resolveValue 32775#16 (busy 32764#16) = some 40000#16 ∧
      firstIllegal 1 (Instr.mult 32775#16 32775#16 32776#16).operands = some (.invalidOperand, 32776#16, 4) := by decide

theorem witness_ModTakesRemainder :
    Fits (.mod 32775#16 32775#16 32775#16) (busy 32764#16) ∧ resolveRegisterIndex 32775#16 = some 7 ∧
      resolveValue 32775#16 (busy 32764#16) = some 40000#16 ∧
      resolveValue 32775#16 (busy 32764#16) = some 40000#16 ∧ 40000#16 ≠ 0#16 ∧
      resolveValue 0#16 (busy 32764#16) = some 0#16 ∧ Fits (.mod 32775#16 32775#16 0#16) (busy 32764#16) ∧
      firstIllegal 1 (Instr.mod 32775#16 32775#16 32776#16).operands = some (.invalidOperand, 32776#16, 4) := by decide

theorem witness_AndKeepsFifteenBits :
    Fits (.and 32775#16 32775#16 32775#16) (busy 32764#16) ∧ resolveRegisterIndex 32775#16 = some 7 ∧
      resolveValue 32775#16 (busy 32764#16) = some 40000#16 ∧
      resolveValue 32775#16 (busy 32764#16) = some 40000#16 ∧
      firstIllegal 1 (Instr.and 32775#16 32775#16 32776#16).operands = some (.invalidOperand, 32776#16, 4) := by decide

theorem witness_OrKeepsFifteenBits :
    Fits (.or 32775#16 32775#16 32775#16) (busy 32764#16) ∧ resolveRegisterIndex 32775#16 = some 7 ∧
      resolveValue 32775#16 (busy 32764#16) = some 40000#16 ∧
      resolveValue 32775#16 (busy 32764#16) = some 40000#16 ∧
      firstIllegal 1 (Instr.or 32775#16 32775#16 32776#16).operands = some (.invalidOperand, 32776#16, 4) := by decide

theorem witness_NotComplementsFifteenBits :
    Fits (.not 32775#16 32775#16) (busy 32765#16) ∧ resolveRegisterIndex 32775#16 = some 7 ∧
      resolveValue 32775#16 (busy 32765#16) = some 40000#16 ∧
      firstIllegal 1 (Instr.not 32775#16 32776#16).operands = some (.invalidOperand, 32776#16, 3) := by decide

theorem witness_RmemLoadsWholeWord :
    Fits (.rmem 32775#16 32775#16) (busy 32765#16) ∧ resolveRegisterIndex 32775#16 = some 7 ∧
      resolveValue 32775#16 (busy 32765#16) = some 40000#16 ∧
      resolveValue 32767#16 (busy 32765#16) = some 32767#16 ∧ (32767#16).toNat ≤ 32767 ∧
      Fits (.rmem 32775#16 32775#16) ((busy 32765#16).setReg 7 32768#16) ∧
      resolveValue 32775#16 ((busy 32765#16).setReg 7 32768#16) = some 32768#16 ∧ 32767 < (32768#16).toNat ∧
      firstIllegal 1 (Instr.rmem 32775#16 32776#16).operands = some (.invalidOperand, 32776#16, 3) := by decide

theorem witness_WmemStoresWholeWord :
    Fits (.wmem 32775#16 32775#16) (busy 32765#16) ∧ resolveValue 32775#16 (busy 32765#16) = some 40000#16 ∧
      resolveValue 32775#16 (busy 32765#16) = some 40000#16 ∧ (busy 32765#16).mem.wf = true ∧
      resolveValue 32767#16 (busy 32765#16) = some 32767#16 ∧ (32767#16).toNat ≤ 32767 ∧
      Fits (.wmem 32775#16 32775#16) ((busy 32765#16).setReg 7 32768#16) ∧
      resolveValue 32775#16 ((busy 32765#16).setReg 7 32768#16) = some 32768#16 ∧ 32767 < (32768#16).toNat ∧
      firstIllegal 1 (Instr.wmem 32775#16 32776#16).operands = some (.invalidOperand, 32776#16, 3) := by decide

theorem witness_CallPushesReturnAddress :
    Fits (.call 32775#16) (busy 32766#16) ∧ resolveValue 32775#16 (busy 32766#16) = some 40000#16 ∧
      (busy 32766#16).stack.length ≠ 32768 ∧ Fits (.call 32775#16) (full (busy 32766#16)) ∧
      resolveValue 32775#16 (full (busy 32766#16)) = some 40000#16 ∧ (full (busy 32766#16)).stack.length = 32768 ∧
      firstIllegal 1 (Instr.call 32776#16).operands = some (.invalidOperand, 32776#16, 2) :=
  ⟨by decide, by decide, by decide, by decide, by decide, length_full _, by decide⟩

/-- `push` and `call` at the end of Memory with the stack full, and below capacity. -/
theorem witness_StackOverflowExactlyAtCapacity :
    (full (busy 32766#16)).runstate = .running ∧ (full (busy 32766#16)).pc.toNat ≤ 32767 ∧
      (full (busy 32766#16)).stack.length = 32768 ∧
      Fits (.push 100#16) (full (busy 32766#16)) ∧ Fits (.call 100#16) (full (busy 32766#16)) ∧
      resolveValue 100#16 (full (busy 32766#16)) = some 100#16 ∧
      (∃ t, exec (.push 100#16) (full (busy 32766#16)) = .next t ∧ Takes .stackOverflow t) ∧
      (∃ t, exec (.call 100#16) (full (busy 32766#16)) = .next t ∧ Takes .stackOverflow t) ∧
      ∃ t, exec (.call 100#16) (busy 32766#16) = .next t ∧ ¬ Takes .stackOverflow t := by
  refine ⟨rfl, by decide, length_full _, by decide, by decide, by decide, ?_, ?_, _, rfl, by decide⟩
  · rcases exec_answers (full (busy 32766#16)) (.push 100#16) with ⟨p, hp, _⟩ | ⟨_, t, ht, e⟩
    · cases (show operandFault 32766#16 1 [(.val, 100#16)] = none by decide).symm.trans hp
    · cases ht with
      | push _ hd => exact absurd (length_full _) hd
      | pushFull => exact ⟨_, e, rfl, rfl⟩
  · rcases exec_answers (full (busy 32766#16)) (.call 100#16) with ⟨p, hp, _⟩ | ⟨_, t, ht, e⟩
    · cases (show operandFault 32766#16 1 [(.val, 100#16)] = none by decide).symm.trans hp
    · cases ht with
      | call _ hd => exact absurd (length_full _) hd
      | callFull => exact ⟨_, e, rfl, rfl⟩

/-- `pop` and `ret` at the end of Memory with the stack empty, and `ret` with words on it. -/
theorem witness_StackUnderflowExactlyWhenEmpty :
    (placed 32766#16 []).runstate = .running ∧ (placed 32767#16 []).pc.toNat ≤ 32767 ∧
      (placed 32766#16 []).stack = [] ∧ Fits (.pop 32768#16) (placed 32766#16 []) ∧
      resolveRegisterIndex 32768#16 = some 0 ∧ Fits .ret (placed 32767#16 []) ∧
      (∃ t, exec (.pop 32768#16) (placed 32766#16 []) = .next t ∧ Takes .stackUnderflow t) ∧
      (∃ t, exec .ret (placed 32767#16 []) = .next t ∧ Takes .stackUnderflow t) ∧
      ∃ t, exec .ret (busy 32767#16) = .next t ∧ ¬ Takes .stackUnderflow t :=
  ⟨rfl, by decide, rfl, by decide, by decide, by decide, ⟨_, rfl, rfl, rfl⟩, ⟨_, rfl, rfl, rfl⟩, _, rfl, by decide⟩

/-- The longest faulting step: four words fetched, at the end of Memory. -/
theorem witness_FaultingStepChangesNoData :
    ∃ t, step (placed 32764#16 [11#16, 32768#16, 5#16, 0#16]) = .next t ∧ t.runstate = .faulted ∧ t.pc = 32768#16 :=
  ⟨_, rfl, rfl, rfl⟩

theorem witness_TerminalStatesAreFrozen :
    ∃ s t, step (start [0#16]) = .next s ∧ s.runstate = .halted ∧
      step (start [22#16]) = .next t ∧ t.runstate = .faulted :=
  ⟨_, _, rfl, rfl, rfl, rfl⟩

/-- A halt at 32767, a step that stays Running and one that faults. -/
theorem witness_RunStateTransitions :
    (∃ t, step (placed 32767#16 []) = .next t ∧ t.runstate = .halted) ∧
      (∃ t, step (placed 32767#16 [21#16]) = .next t ∧ t.runstate = .running) ∧
      ∃ t, step (placed 32768#16 []) = .next t ∧ t.runstate = .faulted :=
  ⟨⟨_, rfl, rfl⟩, ⟨_, rfl, rfl⟩, _, rfl, rfl⟩

theorem witness_OnlyDestinationRegisterChanges :
    (∃ t, exec (.set 32768#16 5#16) (start []) = .next t) ∧
      (∀ a, destination (.set 32768#16 5#16) = some a → resolveRegisterIndex a ≠ some 1) ∧
      (∃ t, exec (.jmp 5#16) (start []) = .next t) ∧
      ∀ a, destination (.jmp 5#16) = some a → resolveRegisterIndex a ≠ some 1 :=
  ⟨⟨_, rfl⟩, fun a h => by cases h; decide, ⟨_, rfl⟩, fun a h => by cases h⟩

theorem witness_OnlyWmemChangesMemory :
    (∃ t, exec (.wmem 32767#16 5#16) (start []) = .next t) ∧
      resolveValue 32767#16 (start []) = some 32767#16 ∧ resolveValue 32776#16 (start []) = none ∧
      ∃ t, exec (.set 32768#16 5#16) (start []) = .next t :=
  ⟨⟨_, rfl⟩, by decide, by decide, _, rfl⟩

theorem witness_OnlyStackInstructionsChangeStack :
    (∃ t, exec (.push 5#16) (start []) = .next t ∧ t.stack = [5#16]) ∧
      (∃ t, exec (.pop 32768#16) (busy 0#16) = .next t ∧ t.stack = [9#16]) ∧
      ∃ t, exec (.jmp 5#16) (busy 0#16) = .next t ∧ t.stack = [7#16, 9#16] :=
  ⟨⟨_, rfl, rfl⟩, ⟨_, rfl, rfl⟩, _, rfl, rfl⟩

theorem witness_OnlyConsoleInstructionsTouchConsole :
    (∃ t, exec (.out 65#16) (start []) = .next t ∧ t.output = [65#8]) ∧
      ∃ t, exec (.in_ 32768#16) (withLines [[65#8, 10#8]] (start [])) = .next t ∧ t.console.remainder = [10#8] :=
  ⟨⟨_, rfl, rfl⟩, _, rfl, rfl⟩

/-- A taken and an untaken jump, an `in` that completes and one that waits. -/
theorem witness_PcAfterInstruction :
    (start []).runstate = .running ∧ Fits (.jt 0#16 9#16) (start []) ∧
      (∃ t, exec (.jt 0#16 9#16) (start []) = .next t ∧ t.pc = 3#16 ∧ t.runstate ≠ .faulted) ∧
      (∃ t, exec (.jt 1#16 9#16) (start []) = .next t ∧ t.pc = 9#16 ∧ t.runstate ≠ .faulted) ∧
      (∃ t, exec (.in_ 32768#16) (start []) = .next t ∧ t.pc = 0#16 ∧ t.runstate ≠ .faulted) ∧
      ∃ t, exec (.in_ 32768#16) (withLines [[65#8]] (start [])) = .next t ∧ t.pc = 2#16 ∧ t.runstate ≠ .faulted :=
  ⟨rfl, by decide, ⟨_, rfl, rfl, by decide⟩, ⟨_, rfl, rfl, by decide⟩, ⟨_, rfl, rfl, by decide⟩,
    _, rfl, rfl, by decide⟩

theorem witness_ComputedResultsAreFifteenBit :
    (busy 0#16).runstate = .running ∧ resolveRegisterIndex 32768#16 = some 0 ∧
      (∃ t, exec (.or 32768#16 32775#16 1#16) (busy 0#16) = .next t ∧ t.runstate = .running) ∧
      ∃ t, exec (.not 32768#16 32775#16) (busy 0#16) = .next t ∧ t.runstate = .running :=
  ⟨rfl, by decide, ⟨_, rfl, rfl⟩, _, rfl, rfl⟩

theorem witness_ReadReturnsLatestWrite :
    Memory.wf [(65534, 1#8), (65535, 2#8)] = true ∧ 32767 ≤ 32767 := by decide

theorem witness_CanonicalMemoryIsUnique :
    Memory.wf [(65535, 2#8)] = true ∧ Memory.wf (Memory.writeByte [(65534, 1#8), (65535, 2#8)] 65534 0#8) = true ∧
      ∀ n, n ≤ 32767 → Memory.readWord [(65535, 2#8)] n =
        Memory.readWord (Memory.writeByte [(65534, 1#8), (65535, 2#8)] 65534 0#8) n :=
  ⟨by decide, by decide, fun _ _ => rfl⟩

/-- The stored word is the last of Memory; it is no opcode in the one case, and `noop` in the other. -/
theorem witness_StoreIsSeenByNextFetch :
    let s := placed 32764#16 []
    s.runstate = .running ∧ s.mem.wf = true ∧ s.pc.toNat ≤ 32764 ∧ resolveValue 32767#16 s = some 32767#16 ∧
      resolveValue 22#16 s = some 22#16 ∧ resolveValue 21#16 s = some 21#16 ∧ 32767#16 = s.pc + 3#16 ∧
      22 ≤ (22#16).toNat := by decide

/-- The last two free places of the stack; and the empty stack. -/
theorem witness_StackReturnsValuesInReverse :
    ({ start [] with stack := List.replicate 32766 0#16 } : State).stack.length + [1#16, 2#16].length ≤ 32768 ∧
      (start []).stack.length + [1#16, 2#16].length ≤ 32768 ∧ (start []).stack = [] :=
  ⟨Nat.le_of_eq (congrArg (· + 2) List.length_replicate), by decide, rfl⟩

/-- An `in` at the end of Memory. -/
theorem witness_StallLastsUntilInput :
    let s := placed 32766#16 [20#16, 32775#16]
    s.runstate = .running ∧ s.pc.toNat ≤ 32766 ∧ s.mem.readWord s.pc.toNat = 20#16 ∧
      s.mem.readWord (s.pc.toNat + 1) = 32775#16 ∧ resolveRegisterIndex 32775#16 = some 7 ∧
      s.console.remainder = [] := by decide

/-- An odd stream, one word too many, and the largest image. -/
theorem witness_ImageIsLoadedLittleEndian :
    [1#8].length % 2 = 1 ∧ 65536 < (List.replicate 65538 1#8).length ∧ (List.replicate 65536 1#8).length % 2 = 0 ∧
      (List.replicate 65536 1#8).length ≤ 65536 := by
  rw [List.length_replicate, List.length_replicate]
  decide

/-- A run over an infinite `INPUT`, "A" and the terminator for ever: two lines delivered, one before and one after the first
step, and the first `in` completed; the second is about to take byte 1. -/
theorem witness_BufferDeliversInputInOrder :
    let img : Image := ⟨[20#16, 32768#16, 20#16, 32769#16], by decide⟩
    let input := Input.infinite fun n => if n % 2 = 0 then 65#8 else 10#8
    ∃ s, Runs img input 4 1 s ∧ takesInput s = true ∧ inPort s = some 10#8 ∧ s.reg 0 = 65#16 := by
  intro img input
  have line : ∀ n, n % 2 = 0 → input.isLine n [65#8, 10#8] := by
    refine fun n hn => ⟨by decide, ?_, by decide, .inl rfl⟩
    rintro (_ | _ | k) hk
    · simp [input, Input.get?, hn]
    · simp [input, Input.get?, Nat.add_mod, hn]
    · exact absurd hk (by simp)
  let s := deliver [65#8, 10#8] (boot img [])
  let t : State :=
    { s with
      pc := 2#16
      regs := s.regs.set 0 65#16
      console := { mode := .ready, line := [65#8, 10#8], cursor := 1, source := [] } }
  have h1 : Runs img input 2 0 s := Runs.start.line (line 0 rfl)
  have h2 : Runs img input 2 1 t := by
    have h := h1.step (step_of_after (s := s) (t := t) (by decide))
    rwa [if_pos (show takesInput s = true by decide)] at h
  exact ⟨deliver [65#8, 10#8] t, h2.line (line 2 rfl), by decide, by decide, by decide⟩

/-- A byte written, and a byte taken. -/
theorem witness_PortsShowWhatTheStepDoes :
    (start [19#16, 65#16]).ports.out = some 65#8 ∧ (∃ t, step (start [19#16, 65#16]) = .next t) ∧
      (withLines [[65#8]] (start [20#16, 32768#16])).ports.inReq = true ∧
      inPort (withLines [[65#8]] (start [20#16, 32768#16])) = some 65#8 ∧
      ∃ t, step (withLines [[65#8]] (start [20#16, 32768#16])) = .next t :=
  ⟨by decide, ⟨_, rfl⟩, by decide, by decide, _, rfl⟩

/-- A legal Running state and a legal Faulted one. -/
theorem witness_PortsTellStatesAndFaultsApart :
    (start [22#16]).Inv ∧ ∃ t, step (start [22#16]) = .next t ∧ t.Inv :=
  ⟨legal_start _ (by decide), _, rfl, by decide, by decide, by decide, ⟨by decide, by decide, by decide⟩, by decide⟩

end Sys2Proof.Tests
end

section
/-! The Operand Resolver on an operand word that Memory has (R66, R67, 30_encoding.md): its two faults, and both modes
whole. -/

namespace Sys2Proof.Machine

variable {w : Word} {s : State}

/-- The fault of R66 (30_encoding.md) is raised with `pc` past the word. -/
theorem valOperand_error (hpc : s.pc.toNat < 32768) (h : resolveValue w s = none) :
    valOperand w s = .error (.raised .invalidOperand w) (s.setPc (s.pc + 1#16)) := by
  simp [valOperand_spec, hpc, h]

/-- The fault of R67 (30_encoding.md) is raised with `pc` past the word. -/
theorem regOperand_error (hpc : s.pc.toNat < 32768) (h : resolveRegisterIndex w = none) :
    regOperand w s = .error (.raised .invalidRegisterOperand w) (s.setPc (s.pc + 1#16)) := by
  simp [regOperand_spec, hpc, h]

/-- Settles O12: each clause is the resolver's answer on its range of words, with `pc` past the word fetched. -/
theorem resolverModes : Obligations.ResolverModes := by
  intro w s hpc
  have hmem : s.pc.toNat < 32768 := Nat.lt_succ_of_le hpc
  refine ⟨fun hlit => ?_, fun r hr => ?_, fun hbad => ?_, fun r hr => ?_, fun hbad => ?_⟩
  · exact valOperand_ok hmem (resolveValue_literal hlit s)
  · exact valOperand_ok hmem (resolveValue_register hr s)
  · exact valOperand_error hmem ((resolveValue_none_iff w s).2 hbad)
  · exact regOperand_ok hmem ((registerRef_some_iff w r).2 hr)
  · exact regOperand_error hmem ((registerRef_none_iff w).2 hbad)

end Sys2Proof.Machine
end

section
/-! `halt` and `noop` (R100, R101, 41_system.md): handlers with no operand phase, which complete from `pc = a0 + 1`. -/

namespace Sys2Proof.Machine

/-- A handler that completes leaves the next state it completed in (R89, 40_execute_loop.md). -/
theorem runHandler_of_completes {fop : Word} {body : Handler Unit} {s t : State}
    (h : body (s.setPc (s.pc + 1#16)) = .ok () t) : runHandler fop body s = .next t := by
  rw [runHandler, h, finish_ok]

theorem enterHalted_ok (s : State) : enterHalted s = .ok () { s with runstate := .halted } := rfl

theorem exec_halt (s : State) : exec .halt s = runHandler 0#16 enterHalted s := rfl

theorem exec_noop (s : State) : exec .noop s = runHandler 21#16 (pure ()) s := rfl

/-- Settles O16: the handler sets `runstate` on the state whose `pc` the opcode fetch advanced. -/
theorem haltStops : Obligations.HaltStops := by
  intro s
  rw [exec_halt]
  exact runHandler_of_completes (enterHalted_ok (s.setPc (s.pc + 1#16)))

/-- Settles O17: the handler does nothing after the opcode fetch advanced `pc`. -/
theorem noopOnlyAdvancesPc : Obligations.NoopOnlyAdvancesPc := by
  intro s
  rw [exec_noop]
  exact runHandler_of_completes (pure_ok () (s.setPc (s.pc + 1#16)))

end Sys2Proof.Machine
end

section
/-! What an instruction whose words all stand in Memory answers (R64, 30_encoding.md): the fault of its first illegal
operand, or an end of `Ends`. -/

namespace Sys2Proof.Machine

open Sys2Proof.Spec

/-- R187 and R188 (60_exceptions.md) in one equation: a legal word is passed over, an illegal one is the answer. -/
theorem firstIllegal_cons (n : Nat) (k : OperandKind) (w : Word) (ops : List (OperandKind × Word)) :
    firstIllegal n ((k, w) :: ops) = if k.legal w then firstIllegal (n + 1) ops else some (k.fault, w, n + 1) := by
  cases k with
  | reg => simp [firstIllegal, OperandKind.legal, OperandKind.fault]
  | val => simp [firstIllegal, OperandKind.legal, OperandKind.fault]

/-- Where Memory has every operand word, the first operand fault is that of the first illegal word. -/
theorem operandFault_eq_firstIllegal {pc : Word} (ops : List (OperandKind × Word)) (n : Nat)
    (h : pc.toNat + n + ops.length ≤ 32768) : operandFault pc n ops = firstIllegal n ops := by
  induction ops generalizing n with
  | nil => rfl
  | cons op ops ih =>
    rw [List.length_cons] at h
    have hmem : (pc + BitVec.ofNat 16 n).toNat < 32768 := by
      rw [BitVec.toNat_add, BitVec.toNat_ofNat]
      omega
    rw [operandFault, if_pos hmem, ih (n + 1) (by omega), firstIllegal_cons]

/-- No operand word is the first illegal one exactly where all are legal. -/
theorem firstIllegal_eq_none_iff (ops : List (OperandKind × Word)) (n : Nat) :
    firstIllegal n ops = none ↔ (ops.all fun p => p.1.legal p.2) = true := by
  induction ops generalizing n with
  | nil => simp [firstIllegal]
  | cons op ops ih =>
    rw [firstIllegal_cons, List.all_cons, Bool.and_eq_true, ← ih (n + 1)]
    by_cases hlegal : op.1.legal op.2 = true
    · simp [hlegal]
    · simp [hlegal]

variable {i : Instr} {s : State}

theorem operandFault_of_fits (h : Fits i s) : operandFault s.pc 1 i.operands = firstIllegal 1 i.operands :=
  operandFault_eq_firstIllegal i.operands 1 (by omega)

/-- R187, R188 (60_exceptions.md), for every instruction. -/
theorem faultsOnIllegalOperand_of_fits (h : Fits i s) : FaultsOnIllegalOperand i s := by
  intro k w n hill
  rcases exec_answers s i with ⟨p, hp, e⟩ | ⟨hnone, _⟩
  · obtain rfl : p = (k, w, n) := Option.some.inj (by rw [← hp, operandFault_of_fits h, hill])
    exact e
  · rw [operandFault_of_fits h, hill] at hnone
    cases hnone

/-- With every operand word in Memory and legal, the handler's body ran. -/
theorem exec_ends_of_fits (h : Fits i s) (hwf : i.wf = true) : ∃ t, Ends i s t ∧ exec i s = .next t := by
  rcases exec_answers s i with ⟨p, hp, _⟩ | ⟨_, hends⟩
  · rw [operandFault_of_fits h, (firstIllegal_eq_none_iff _ _).2 hwf] at hp
    cases hp
  · exact hends

end Sys2Proof.Machine
end

section
/-! `set`, `push` and `pop` (R105 to R107, 42_set_stack.md): the words that resolve are the legal ones, and the resolved
operands and the stack choose the end of the handler. -/

namespace Sys2Proof.Machine

open Sys2Proof.Spec

variable {a b va vb : Word} {r : Reg} {s : State}

theorem legal_reg_of_resolves (h : resolveRegisterIndex a = some r) : OperandKind.legal .reg a = true :=
  (legal_reg_iff a).2 ⟨r, h⟩

theorem legal_val_of_resolves (h : resolveValue a s = some va) : OperandKind.legal .val a = true :=
  (legal_val_iff a s).2 ⟨va, h⟩

theorem set_wf_of_resolves (ha : resolveRegisterIndex a = some r) (hb : resolveValue b s = some vb) :
    (Instr.set a b).wf = true := by
  simp [Instr.wf, Instr.operands, legal_reg_of_resolves ha, legal_val_of_resolves hb]

theorem push_wf_of_resolves (ha : resolveValue a s = some va) : (Instr.push a).wf = true := by
  simp [Instr.wf, Instr.operands, legal_val_of_resolves ha]

theorem pop_wf_of_resolves (ha : resolveRegisterIndex a = some r) : (Instr.pop a).wf = true := by
  simp [Instr.wf, Instr.operands, legal_reg_of_resolves ha]

/-- Settles O18: with both operands resolved, `set` has one end. -/
theorem setCopiesWholeValue : Obligations.SetCopiesWholeValue := by
  intro a b s hfits
  refine ⟨fun r vb ha hb => ?_, faultsOnIllegalOperand_of_fits hfits⟩
  obtain ⟨t, hends, e⟩ := exec_ends_of_fits hfits (set_wf_of_resolves ha hb)
  cases hends with
  | set ha' hb' =>
    cases ha.symm.trans ha'
    cases hb.symm.trans hb'
    exact e

/-- Settles O19: with the operand resolved, the depth alone chooses between the two ends of `push`. -/
theorem pushPutsValueOnTop : Obligations.PushPutsValueOnTop := by
  intro a s hfits
  refine ⟨fun va ha => ?_, faultsOnIllegalOperand_of_fits hfits⟩
  obtain ⟨t, hends, e⟩ := exec_ends_of_fits hfits (push_wf_of_resolves ha)
  cases hends with
  | push ha' hroom =>
    cases ha.symm.trans ha'
    exact ⟨fun _ => e, fun hfull => absurd hfull hroom⟩
  | pushFull _ hfull => exact ⟨fun hroom => absurd hfull hroom, fun _ => e⟩

/-- Settles O20: with the operand resolved, the stack alone chooses between the two ends of `pop`. -/
theorem popMovesTopToRegister : Obligations.PopMovesTopToRegister := by
  intro a s hfits
  refine ⟨fun r ha => ?_, faultsOnIllegalOperand_of_fits hfits⟩
  obtain ⟨t, hends, e⟩ := exec_ends_of_fits hfits (pop_wf_of_resolves ha)
  cases hends with
  | pop ha' hstack =>
    cases ha.symm.trans ha'
    refine ⟨fun v vs hs => ?_, fun hempty => by simp [hempty] at hstack⟩
    cases hs.symm.trans hstack
    exact e
  | popEmpty _ hempty => exact ⟨fun v vs hs => by simp [hempty] at hs, fun _ => e⟩

end Sys2Proof.Machine
end

section
/-! `eq` and `gt` (R115, R116, 43_compare.md): what an instruction of format `RVV` that writes one word to its
destination answers on operands that resolve, and the words the two comparisons write. -/

namespace Sys2Proof.Machine

variable {a b c vb vc : Word} {r : Reg} {s : State}

/-- The counterpart of `answers_of_writes` for operands that Memory has and that resolve: the word written is that of
the resolved values, and `pc` ends past the four words. -/
theorem exec_of_writes_of_resolves {i : Instr} {f : Word → Word → Word}
    (hexec : exec i s = runHandler i.opcode (formatRVV a b c fun r vb vc => writeReg r (f vb vc)) s)
    (hpc : s.pc.toNat + 3 ≤ 32767) (ha : resolveRegisterIndex a = some r) (hb : resolveValue b s = some vb)
    (hc : resolveValue c s = some vc) :
    exec i s = .next { s with regs := s.regs.set r (f vb vc), pc := s.pc + 4#16 } := by
  have hnext : (s.pc + 1#16).toNat = s.pc.toNat + 1 := pc_next (by omega)
  have hpast : s.pc + 1#16 + 3#16 = s.pc + 4#16 := BitVec.add_assoc ..
  have hmem : (s.setPc (s.pc + 1#16)).pc.toNat + 2 < 32768 := by
    rw [setPc_pc, hnext]
    omega
  have hbody : formatRVV a b c (fun r vb vc => writeReg r (f vb vc)) (s.setPc (s.pc + 1#16)) =
      .ok () ((s.setPc (s.pc + 4#16)).setReg r (f vb vc)) := by
    refine (formatRVV_ok hmem ha hb hc).trans ?_
    rw [setPc_pc, setPc_setPc, hpast, writeReg]
  exact hexec.trans (runHandler_of_completes hbody)

theorem eqWord_eq_ite (vb vc : Word) : eqWord vb vc = if vb = vc then 1#16 else 0#16 := by
  simp [eqWord, truthWord]

theorem gtWord_eq_ite (vb vc : Word) : gtWord vb vc = if vc.toNat < vb.toNat then 1#16 else 0#16 := by
  simp [gtWord, truthWord]

/-- Settles O21: the operands resolved, `eq` writes the truth of their equality as whole words. -/
theorem eqWritesOneOrZero : Obligations.EqWritesOneOrZero := by
  intro a b c s hfits
  refine ⟨fun r vb vc ha hb hc => ?_, faultsOnIllegalOperand_of_fits hfits⟩
  rw [← eqWord_eq_ite]
  exact exec_of_writes_of_resolves rfl hfits ha hb hc

/-- Settles O22: the operands resolved, `gt` writes the truth of the strict comparison of their unsigned values. -/
theorem gtComparesUnsigned : Obligations.GtComparesUnsigned := by
  intro a b c s hfits
  refine ⟨fun r vb vc ha hb hc => ?_, faultsOnIllegalOperand_of_fits hfits⟩
  rw [← gtWord_eq_ite]
  exact exec_of_writes_of_resolves rfl hfits ha hb hc

end Sys2Proof.Machine
end

section
/-! `jmp`, `jt` and `jf` (R120 to R122, 44_jump.md): an instruction whose operand positions are all `val` is legal where
its words resolve, and the resolved values then fix the next `pc`. -/

namespace Sys2Proof.Machine

open Sys2Proof.Spec

variable {a b va t : Word} {i : Instr} {s : State}

/-- Format `V` (R61, 30_encoding.md), whichever instruction has it. -/
theorem wf_of_formatV_resolves (hops : i.operands = [(.val, a)]) (ha : resolveValue a s = some t) : i.wf = true := by
  simp [Instr.wf, hops, legal_val_of_resolves ha]

/-- Format `VV` (R61, 30_encoding.md), whichever instruction has it. -/
theorem wf_of_formatVV_resolves (hops : i.operands = [(.val, a), (.val, b)]) (ha : resolveValue a s = some va)
    (hb : resolveValue b s = some t) : i.wf = true := by
  simp [Instr.wf, hops, legal_val_of_resolves ha, legal_val_of_resolves hb]

theorem exec_jmp_of_resolves (hfits : Fits (.jmp a) s) (ha : resolveValue a s = some t) :
    exec (.jmp a) s = .next { s with pc := t } := by
  obtain ⟨u, hends, e⟩ := exec_ends_of_fits hfits (wf_of_formatV_resolves rfl ha)
  cases hends with
  | jmp ha' =>
    cases ha.symm.trans ha'
    exact e

theorem exec_jt_of_resolves (hfits : Fits (.jt a b) s) (ha : resolveValue a s = some va)
    (hb : resolveValue b s = some t) :
    exec (.jt a b) s = .next { s with pc := if va = 0#16 then s.pc + 3#16 else t } := by
  obtain ⟨u, hends, e⟩ := exec_ends_of_fits hfits (wf_of_formatVV_resolves rfl ha hb)
  cases hends with
  | jt ha' hb' =>
    cases ha.symm.trans ha'
    cases hb.symm.trans hb'
    exact e

theorem exec_jf_of_resolves (hfits : Fits (.jf a b) s) (ha : resolveValue a s = some va)
    (hb : resolveValue b s = some t) :
    exec (.jf a b) s = .next { s with pc := if va = 0#16 then t else s.pc + 3#16 } := by
  obtain ⟨u, hends, e⟩ := exec_ends_of_fits hfits (wf_of_formatVV_resolves rfl ha hb)
  cases hends with
  | jf ha' hb' =>
    cases ha.symm.trans ha'
    cases hb.symm.trans hb'
    exact e

/-- Settles O23: with the operand resolved, `jmp` has one end, whatever the target. -/
theorem jmpSetsPc : Obligations.JmpSetsPc := by
  intro a s hfits
  exact ⟨fun t ha => exec_jmp_of_resolves hfits ha, faultsOnIllegalOperand_of_fits hfits⟩

/-- Settles O24: with both operands resolved, the value of `a` alone chooses the next `pc`. -/
theorem jtJumpsOnNonzero : Obligations.JtJumpsOnNonzero := by
  intro a b s hfits
  exact ⟨fun va t ha hb => exec_jt_of_resolves hfits ha hb, faultsOnIllegalOperand_of_fits hfits⟩

/-- Settles O25: `jf` and `jt` test the same value for 0 and take opposite branches. -/
theorem jfJumpsOnZero : Obligations.JfJumpsOnZero := by
  intro a b s hfits
  refine ⟨fun va t ha hb => ?_, faultsOnIllegalOperand_of_fits hfits⟩
  have hjf := exec_jf_of_resolves hfits ha hb
  have hjt := exec_jt_of_resolves (show Fits (.jt a b) s from hfits) ha hb
  refine ⟨hjf, ?_⟩
  by_cases hzero : va = 0#16
  · rw [if_pos hzero] at hjf hjt
    exact .inl ⟨hjf, hjt⟩
  · rw [if_neg hzero] at hjf hjt
    exact .inr ⟨hjt, hjf⟩

end Sys2Proof.Machine
end

section
/-! `add` and `mult` (R130, R131, 45_arith.md): the two reduced words, and the instructions that write them. -/

namespace Sys2Proof.Machine

variable (vb vc : Word)

theorem addWord_eq_sum_mod : addWord vb vc = BitVec.ofNat 16 ((vb.toNat + vc.toNat) % 32768) := by
  rw [addWord, Config.modulus]

theorem multWord_eq_product_mod : multWord vb vc = BitVec.ofNat 16 ((vb.toNat * vc.toNat) % 32768) := by
  rw [multWord, Config.modulus]

/-- Settles O26: the operands resolved, `add` writes their exact sum, reduced once (R133, 45_arith.md). -/
theorem addWrapsModulo32768 : Obligations.AddWrapsModulo32768 := by
  intro a b c s hfits
  refine ⟨fun r vb vc ha hb hc => ?_, faultsOnIllegalOperand_of_fits hfits⟩
  rw [← addWord_eq_sum_mod]
  exact exec_of_writes_of_resolves rfl hfits ha hb hc

/-- Settles O27: the operands resolved, `mult` writes their exact product, reduced once (R133, 45_arith.md). -/
theorem multWrapsModulo32768 : Obligations.MultWrapsModulo32768 := by
  intro a b c s hfits
  refine ⟨fun r vb vc ha hb hc => ?_, faultsOnIllegalOperand_of_fits hfits⟩
  rw [← multWord_eq_product_mod]
  exact exec_of_writes_of_resolves rfl hfits ha hb hc

end Sys2Proof.Machine
end


section
/-! `not` (R142, 46_logic.md): the complement under the mask of R143, as bits and as a number, and the instruction that
writes it. -/

namespace Sys2Proof.Machine

variable {a b vb : Word} {r : Reg} {i : Instr} {s : State}

theorem mask15_getLsbD (k : Nat) : Config.mask15.getLsbD k = decide (k < 15) := by
  have htest : Nat.testBit 32767 k = decide (k < 15) := Nat.testBit_two_pow_sub_one 15 k
  rw [BitVec.getLsbD_ofNat, htest, ← Bool.decide_and]
  exact decide_eq_decide.2 (by omega)

theorem notWord_getLsbD (vb : Word) (k : Nat) : (notWord vb).getLsbD k = (decide (k < 15) && !vb.getLsbD k) := by
  rw [notWord, BitVec.getLsbD_and, mask15_getLsbD, BitVec.getLsbD_not]
  by_cases hk : k < 15
  · simp [hk, show k < 16 by omega]
  · simp [hk]

theorem notWord_toNat (vb : Word) : (notWord vb).toNat = 32767 - vb.toNat % 32768 := by
  have hmask (n : Nat) : n &&& 32767 = n % 32768 := Nat.and_two_pow_sub_one_eq_mod n 15
  rw [notWord, BitVec.toNat_and, BitVec.toNat_not, BitVec.toNat_ofNat, Nat.mod_eq_of_lt (by decide), hmask]
  omega

/-- Format `RV` (R61, 30_encoding.md), whichever instruction has it. -/
theorem wf_of_formatRV_resolves (hops : i.operands = [(.reg, a), (.val, b)]) (ha : resolveRegisterIndex a = some r)
    (hb : resolveValue b s = some vb) : i.wf = true := by
  simp [Instr.wf, hops, legal_reg_of_resolves ha, legal_val_of_resolves hb]

theorem exec_not_of_resolves (hfits : Spec.Fits (.not a b) s) (ha : resolveRegisterIndex a = some r)
    (hb : resolveValue b s = some vb) :
    exec (.not a b) s = .next { s with regs := s.regs.set r (notWord vb), pc := s.pc + 3#16 } := by
  obtain ⟨t, hends, e⟩ := exec_ends_of_fits hfits (wf_of_formatRV_resolves rfl ha hb)
  cases hends with
  | not ha' hb' =>
    cases ha.symm.trans ha'
    cases hb.symm.trans hb'
    exact e

/-- Settles O31: with both operands resolved, `not` writes `notWord`, which R142 gives as bits and as a number. -/
theorem notComplementsFifteenBits : Obligations.NotComplementsFifteenBits := by
  intro a b s hfits
  refine ⟨fun r vb ha hb => ?_, faultsOnIllegalOperand_of_fits hfits⟩
  exact ⟨notWord vb, notWord_getLsbD vb, notWord_toNat vb, exec_not_of_resolves hfits ha hb⟩

end Sys2Proof.Machine
end

section
/-! `call` and `ret` (R160, R161, 48_call_ret.md): once no operand can fault, the stack alone chooses the end of the
handler. -/

namespace Sys2Proof.Machine

open Sys2Proof.Spec

variable {i : Instr}

/-- Format `N` (R61, 30_encoding.md): with no operand word to fetch, the handler's body runs in every state. -/
theorem exec_ends_of_formatN (hops : i.operands = []) (s : State) : ∃ t, Ends i s t ∧ exec i s = .next t := by
  rcases exec_answers s i with ⟨p, hp, _⟩ | ⟨_, hends⟩
  · rw [hops] at hp
    cases hp
  · exact hends

/-- Settles O34: with the target resolved, the depth alone chooses between the two ends of `call`. -/
theorem callPushesReturnAddress : Obligations.CallPushesReturnAddress := by
  intro a s hfits
  refine ⟨fun t ha => ?_, faultsOnIllegalOperand_of_fits hfits⟩
  obtain ⟨u, hends, e⟩ := exec_ends_of_fits hfits (wf_of_formatV_resolves rfl ha)
  cases hends with
  | call ha' hroom =>
    cases ha.symm.trans ha'
    exact ⟨fun _ => e, fun hfull => absurd hfull hroom⟩
  | callFull _ hfull => exact ⟨fun hroom => absurd hfull hroom, fun _ => e⟩

/-- Settles O35: `ret` has no operand to fault, so the stack alone chooses between its two ends. -/
theorem retPopsPc : Obligations.RetPopsPc := by
  intro s
  obtain ⟨u, hends, e⟩ := exec_ends_of_formatN (i := .ret) rfl s
  cases hends with
  | ret hstack =>
    refine ⟨fun t vs hs => ?_, fun hempty => by simp [hempty] at hstack⟩
    cases hs.symm.trans hstack
    exact e
  | retEmpty hempty => exact ⟨fun t vs hs => by simp [hempty] at hs, fun _ => e⟩

end Sys2Proof.Machine
end

section
/-! `out` (R170, 49_io.md): the resolved value fixes the byte appended to the output. -/

namespace Sys2Proof.Machine

variable {a v : Word} {s : State}

theorem exec_out_of_resolves (hfits : Spec.Fits (.out a) s) (ha : resolveValue a s = some v) :
    exec (.out a) s = .next { s with output := s.output ++ [lowByte v], pc := s.pc + 2#16 } := by
  obtain ⟨t, hends, e⟩ := exec_ends_of_fits hfits (wf_of_formatV_resolves rfl ha)
  cases hends with
  | out ha' =>
    cases ha.symm.trans ha'
    exact e

/-- Settles O36: with the operand resolved, `out` has one end; `lowByte` is the value modulo 256 by definition. -/
theorem outWritesLowByte : Obligations.OutWritesLowByte := by
  intro a s hfits
  exact ⟨fun v ha => exec_out_of_resolves hfits ha, faultsOnIllegalOperand_of_fits hfits⟩

end Sys2Proof.Machine
end

section
/-! The taking of a fault (R185 to R196, 60_exceptions.md): a Running machine's `exec` ends Faulted by the first operand
fault, or by one of the handlers' own checks. Each kind's theorem then reads off which of the two can raise it. -/

namespace Sys2Proof.Machine

open Sys2Proof.Spec

variable {i : Instr} {s t : State} {k : Fault} {v w pc : Word} {n m : Nat} {ops : List (OperandKind × Word)}

/-- The checks the handlers make on legal operands (R189 to R192, 60_exceptions.md): the kind, the value recorded, and the
number of words fetched by then. -/
inductive HandlerFault : Instr → State → Fault × Word × Nat → Prop
  | push {a v : Word} {s : State} (ha : resolveValue a s = some v) (hfull : s.stack.length = 32768) :
      HandlerFault (.push a) s (.stackOverflow, 0#16, 2)
  | call {a v : Word} {s : State} (ha : resolveValue a s = some v) (hfull : s.stack.length = 32768) :
      HandlerFault (.call a) s (.stackOverflow, 0#16, 2)
  | pop {a : Word} {r : Reg} {s : State} (ha : resolveRegisterIndex a = some r) (hempty : s.stack = []) :
      HandlerFault (.pop a) s (.stackUnderflow, 0#16, 2)
  | ret {s : State} (hempty : s.stack = []) : HandlerFault .ret s (.stackUnderflow, 0#16, 1)
  | mod {a b c vb : Word} {r : Reg} {s : State} (ha : resolveRegisterIndex a = some r)
      (hb : resolveValue b s = some vb) (hc : resolveValue c s = some 0#16) :
      HandlerFault (.mod a b c) s (.divisionByZero, 0#16, 4)
  | rmem {a b addr : Word} {r : Reg} {s : State} (ha : resolveRegisterIndex a = some r)
      (hb : resolveValue b s = some addr) (hbeyond : ¬ addr.toNat < 32768) :
      HandlerFault (.rmem a b) s (.addressOutOfRange, addr, 3)
  | wmem {a b addr v : Word} {s : State} (ha : resolveValue a s = some addr) (hb : resolveValue b s = some v)
      (hbeyond : ¬ addr.toNat < 32768) :
      HandlerFault (.wmem a b) s (.addressOutOfRange, addr, 3)

/-- An end that leaves a Running machine Faulted is that of one of the checks; no other end touches `runstate`, but
`halt`'s. -/
theorem handlerFault_of_ends (h : Ends i s t) (hrun : s.runstate = .running) (hfaulted : t.runstate = .faulted) :
    ∃ p, HandlerFault i s p ∧ t = operandFaulted i.opcode s p := by
  cases h with
  | pushFull ha hd => exact ⟨_, .push ha hd, rfl⟩
  | callFull ha hd => exact ⟨_, .call ha hd, rfl⟩
  | popEmpty ha hs => exact ⟨_, .pop ha hs, rfl⟩
  | retEmpty hs => exact ⟨_, .ret hs, rfl⟩
  | modZero ha hb hc => exact ⟨_, .mod ha hb hc, rfl⟩
  | rmemBeyond ha hb hm => exact ⟨_, .rmem ha hb hm, rfl⟩
  | wmemBeyond ha hb hm => exact ⟨_, .wmem ha hb hm, rfl⟩
  | halt => cases hfaulted
  | _ => cases hrun.symm.trans hfaulted

/-- Where a fault of kind `k` comes from, and the whole state it leaves (R195, R196, 60_exceptions.md). -/
theorem fault_of_takes (hrun : s.runstate = .running) (he : exec i s = .next t) (ht : Takes k t) :
    ∃ v n, t = faultedAt s i.opcode k v n ∧
      (operandFault s.pc 1 i.operands = some (k, v, n) ∨
        operandFault s.pc 1 i.operands = none ∧ HandlerFault i s (k, v, n)) := by
  obtain ⟨hfaulted, hkind⟩ := ht
  rcases exec_next he with ⟨⟨k', v, n⟩, hp, rfl⟩ | ⟨hnone, hends⟩
  · cases hkind
    exact ⟨v, n, rfl, .inl hp⟩
  · obtain ⟨⟨k', v, n⟩, hcheck, rfl⟩ := handlerFault_of_ends hends hrun hfaulted
    cases hkind
    exact ⟨v, n, rfl, .inr ⟨hnone, hcheck⟩⟩

theorem exec_of_operandFault {p : Fault × Word × Nat} (h : operandFault s.pc 1 i.operands = some p) :
    exec i s = .next (operandFaulted i.opcode s p) := by
  rcases exec_answers s i with ⟨p', hp, e⟩ | ⟨hnone, -⟩
  · cases hp.symm.trans h
    exact e
  · cases hnone.symm.trans h

/-- `exec` never answers the host's `.fault` or `.refused` (log entry 2). -/
theorem exec_answers_next (i : Instr) (s : State) : ∃ t, exec i s = .next t := by
  rcases exec_answers s i with ⟨p, -, e⟩ | ⟨-, t, -, e⟩
  · exact ⟨_, e⟩
  · exact ⟨t, e⟩

theorem takes_faultedAt (s : State) (fop v : Word) (n : Nat) : Takes k (faultedAt s fop k v n) := ⟨rfl, rfl⟩

/-- The operand phase raises three kinds and no other (R187, R188, R192 (ii), 60_exceptions.md); the two kinds of an illegal
word come from a word in a position of their kind. -/
theorem operandFault_source (h : operandFault pc n ops = some (k, w, m)) :
    k = .addressOutOfRange ∨ ∃ kind, (kind, w) ∈ ops ∧ OperandKind.legal kind w = false ∧ k = kind.fault := by
  induction ops generalizing n with
  | nil => cases h
  | cons op ops ih =>
    obtain ⟨kind, x⟩ := op
    rw [operandFault] at h
    split at h
    · split at h
      · rcases ih h with haddr | ⟨kind', hmem, hsource⟩
        · exact .inl haddr
        · exact .inr ⟨kind', List.mem_cons_of_mem _ hmem, hsource⟩
      · rename_i hillegal
        cases h
        exact .inr ⟨kind, List.mem_cons_self, by simpa using hillegal, rfl⟩
    · cases h
      exact .inl rfl

theorem operandFault_kind (h : operandFault pc n ops = some (k, w, m)) :
    k = .addressOutOfRange ∨ k = .invalidRegisterOperand ∨ k = .invalidOperand := by
  rcases operandFault_source h with haddr | ⟨_ | _, _, _, hkind⟩
  · exact .inl haddr
  · exact .inr (.inl hkind)
  · exact .inr (.inr hkind)

/-- An operand phase that passes has fetched every operand word (R87, 40_execute_loop.md). -/
theorem fits_of_operandFault_none (hpc : pc.toNat + n ≤ 32768) (h : operandFault pc n ops = none) :
    pc.toNat + n + ops.length ≤ 32768 := by
  induction ops generalizing n with
  | nil => exact hpc
  | cons op ops ih =>
    rw [operandFault] at h
    split at h
    · rename_i hmem
      rw [BitVec.toNat_add, BitVec.toNat_ofNat] at hmem
      split at h
      · have := ih (by omega) h
        rw [List.length_cons]
        omega
      · cases h
    · cases h

end Sys2Proof.Machine
end

section
/-! MalformedOpcode (R186, 60_exceptions.md; R88, 40_execute_loop.md): the decoder's rejection, before dispatch. -/

namespace Sys2Proof.Machine

open Sys2Proof.Spec

variable {w : Word} {s : State}

/-- R70 (30_encoding.md): above 21 no row of the opcode map matches. -/
theorem decode_malformed (ws : List Word) (h : 22 ≤ w.toNat) : decode (w :: ws) = .error (.malformedOpcode w) := by
  unfold decode
  dsimp only
  split
  case h_23 => exact if_neg (by simpa using h)
  all_goals omega

theorem step_of_malformed (hrun : s.runstate = .running) (hpc : s.pc.toNat < 32768)
    (hop : 22 ≤ (wordAt s.mem s.pc.toNat).toNat) :
    step s = .next (rejectedFetch (.malformedOpcode (wordAt s.mem s.pc.toNat)) s) := by
  rw [step, hrun]
  simp [(inMemory_iff s.pc).2 hpc, fetchWindow, decode_malformed _ hop]

/-- Settles O10: the decoder rejects the word before dispatch; neither the operand phase nor a handler's check is of this
kind. -/
theorem malformedOpcodeFaults : Obligations.MalformedOpcodeFaults := by
  refine ⟨fun s hrun hpc hop => ?_, fun i s t hrun he hfaulted hkind => ?_⟩
  · have hword : wordAt s.mem s.pc.toNat = s.mem.readWord s.pc.toNat := if_pos (Nat.lt_succ_of_le hpc)
    rw [← hword] at hop ⊢
    exact step_of_malformed hrun (Nat.lt_succ_of_le hpc) hop
  · obtain ⟨v, n, -, hoperand | ⟨-, hcheck⟩⟩ := fault_of_takes hrun he ⟨hfaulted, hkind⟩
    · simpa using operandFault_kind hoperand
    · cases hcheck

end Sys2Proof.Machine
end

section
/-! InvalidRegisterOperand (R188, 60_exceptions.md): the operand phase on a word in operand `a`'s position. -/

namespace Sys2Proof.Machine

open Sys2Proof.Spec

variable {i : Instr} {s t : State} {w pc : Word} {n : Nat}

/-- The column "Operands" of R69 (30_encoding.md): `reg` positions are the destinations of R26 (10_state.md). -/
theorem reg_mem_operands_iff (i : Instr) (w : Word) : (OperandKind.reg, w) ∈ i.operands ↔ destination i = some w := by
  cases i <;> simp [Instr.operands, destination, eq_comm]

theorem destination_eq_head (i : Instr) :
    destination i = (i.operands.head?).bind fun p => if p.1 = .reg then some p.2 else none := by
  cases i <;> rfl

theorem operands_of_destination (h : destination i = some w) : ∃ ops, i.operands = (.reg, w) :: ops := by
  rw [destination_eq_head, Option.bind_eq_some_iff] at h
  obtain ⟨⟨kind, x⟩, hhead, hkind⟩ := h
  obtain ⟨rfl, rfl⟩ : kind = .reg ∧ x = w := by simpa using hkind
  exact List.head?_eq_some_iff.1 hhead

theorem illegal_reg_iff (w : Word) : OperandKind.legal .reg w = false ↔ w.toNat < 32768 ∨ 32776 ≤ w.toNat := by
  simp [OperandKind.legal]
  omega

/-- R188 (60_exceptions.md) as the condition under which the operand phase raises it. -/
theorem operandFault_eq_invalidRegisterOperand_iff (hpc : pc.toNat ≤ 32767) :
    operandFault pc 1 i.operands = some (.invalidRegisterOperand, w, n) ↔
      n = 2 ∧ pc.toNat + 1 ≤ 32767 ∧ destination i = some w ∧ (w.toNat < 32768 ∨ 32776 ≤ w.toNat) := by
  have hnext : (pc + BitVec.ofNat 16 1).toNat = pc.toNat + 1 := by
    rw [BitVec.toNat_add, BitVec.toNat_ofNat]
    omega
  constructor
  · intro h
    obtain ⟨hdest, hillegal⟩ : destination i = some w ∧ OperandKind.legal .reg w = false := by
      rcases operandFault_source h with haddr | ⟨_ | _, hmem, hillegal, hkind⟩
      · cases haddr
      · exact ⟨(reg_mem_operands_iff i w).1 hmem, hillegal⟩
      · cases hkind
    obtain ⟨ops, hops⟩ := operands_of_destination hdest
    rw [hops, operandFault, hnext, hillegal] at h
    split at h
    · cases h
      exact ⟨rfl, by omega, hdest, (illegal_reg_iff w).1 hillegal⟩
    · cases h
  · rintro ⟨rfl, hmem, hdest, hillegal⟩
    obtain ⟨ops, hops⟩ := operands_of_destination hdest
    rw [hops, operandFault, hnext, if_pos (by omega), (illegal_reg_iff w).2 hillegal]
    rfl

theorem fault_of_takes_invalidRegisterOperand (hrun : s.runstate = .running) (hpc : s.pc.toNat ≤ 32767)
    (he : exec i s = .next t) (ht : Takes .invalidRegisterOperand t) :
    ∃ w, s.pc.toNat + 1 ≤ 32767 ∧ destination i = some w ∧ (w.toNat < 32768 ∨ 32776 ≤ w.toNat) ∧
      t = faultedAt s i.opcode .invalidRegisterOperand w 2 := by
  obtain ⟨w, n, rfl, hoperand | ⟨-, hcheck⟩⟩ := fault_of_takes hrun he ht
  · obtain ⟨rfl, hmem, hdest, hillegal⟩ := (operandFault_eq_invalidRegisterOperand_iff hpc).1 hoperand
    exact ⟨w, hmem, hdest, hillegal, rfl⟩
  · cases hcheck

/-- Settles O14: no handler's check is of this kind, so the operand phase decides. -/
theorem invalidRegisterOperandFaults : Obligations.InvalidRegisterOperandFaults := by
  refine ⟨reg_mem_operands_iff, destination_eq_head, fun i s hrun hpc => ?_⟩
  obtain ⟨t, he⟩ := exec_answers_next i s
  refine ⟨t, he, ⟨fun ht => ?_, fun ⟨hmem, w, hdest, hillegal⟩ => ?_⟩, fun w hdest ht => ?_⟩
  · obtain ⟨w, hmem, hdest, hillegal, -⟩ := fault_of_takes_invalidRegisterOperand hrun hpc he ht
    exact ⟨hmem, w, hdest, hillegal⟩
  · have hoperand := (operandFault_eq_invalidRegisterOperand_iff hpc).2 ⟨rfl, hmem, hdest, hillegal⟩
    cases he.symm.trans (exec_of_operandFault hoperand)
    exact takes_faultedAt s i.opcode w 2
  · obtain ⟨w', -, hdest', -, rfl⟩ := fault_of_takes_invalidRegisterOperand hrun hpc he ht
    cases hdest.symm.trans hdest'
    rfl

end Sys2Proof.Machine
end

section
/-! StackOverflow and StackUnderflow (R189, R190, 60_exceptions.md): the handlers' checks, on operands Memory has. -/

namespace Sys2Proof.Machine

open Sys2Proof.Spec

variable {i : Instr} {s t : State} {k : Fault}

/-- A fault that the operand phase does not raise is that of a check, whose instruction has all its words in Memory. -/
theorem handlerFault_of_takes (hrun : s.runstate = .running) (hpc : s.pc.toNat ≤ 32767) (he : exec i s = .next t)
    (ht : Takes k t)
    (hkind : ¬ (k = .addressOutOfRange ∨ k = .invalidRegisterOperand ∨ k = .invalidOperand)) :
    ∃ v n, Fits i s ∧ HandlerFault i s (k, v, n) ∧ t = faultedAt s i.opcode k v n := by
  obtain ⟨v, n, rfl, hoperand | ⟨hnone, hcheck⟩⟩ := fault_of_takes hrun he ht
  · exact absurd (operandFault_kind hoperand) hkind
  · have hfits := fits_of_operandFault_none (by omega) hnone
    exact ⟨v, n, by unfold Fits; omega, hcheck, rfl⟩

/-- Settles O38: of the checks, those of `push` and `call` alone are of this kind; what they answer at capacity is R106
and R160. -/
theorem stackOverflowExactlyAtCapacity : Obligations.StackOverflowExactlyAtCapacity := by
  intro i s hrun hpc
  obtain ⟨t, he⟩ := exec_answers_next i s
  refine ⟨t, he, ⟨fun ht => ?_, ?_⟩, fun ht => ?_⟩
  · obtain ⟨v, n, hfits, hcheck, -⟩ := handlerFault_of_takes hrun hpc he ht (by simp)
    cases hcheck with
    | push ha hfull => exact ⟨hfits, hfull, _, _, .inl rfl, ha⟩
    | call ha hfull => exact ⟨hfits, hfull, _, _, .inr rfl, ha⟩
  · rintro ⟨hfits, hfull, a, v, rfl | rfl, ha⟩
    · cases he.symm.trans (((pushPutsValueOnTop a s hfits).1 v ha).2 hfull)
      exact takes_faultedAt s 2#16 0#16 2
    · cases he.symm.trans (((callPushesReturnAddress a s hfits).1 v ha).2 hfull)
      exact takes_faultedAt s 17#16 0#16 2
  · obtain ⟨v, n, -, hcheck, rfl⟩ := handlerFault_of_takes hrun hpc he ht (by simp)
    cases hcheck with
    | push => rfl
    | call => rfl

/-- Settles O39: of the checks, those of `pop` and `ret` alone are of this kind; what they answer on the empty stack is
R107 and R161. -/
theorem stackUnderflowExactlyWhenEmpty : Obligations.StackUnderflowExactlyWhenEmpty := by
  intro i s hrun hpc
  obtain ⟨t, he⟩ := exec_answers_next i s
  refine ⟨t, he, ⟨fun ht => ?_, ?_⟩, fun ht => ?_⟩
  · obtain ⟨v, n, hfits, hcheck, -⟩ := handlerFault_of_takes hrun hpc he ht (by simp)
    cases hcheck with
    | pop ha hempty => exact ⟨hfits, hempty, .inl ⟨_, _, rfl, ha⟩⟩
    | ret hempty => exact ⟨hfits, hempty, .inr rfl⟩
  · rintro ⟨hfits, hempty, ⟨a, r, rfl, ha⟩ | rfl⟩
    · cases he.symm.trans (((popMovesTopToRegister a s hfits).1 r ha).2 hempty)
      exact takes_faultedAt s 3#16 0#16 2
    · cases he.symm.trans ((retPopsPc s).2 hempty)
      exact takes_faultedAt s 18#16 0#16 1
  · obtain ⟨v, n, -, hcheck, rfl⟩ := handlerFault_of_takes hrun hpc he ht (by simp)
    cases hcheck with
    | pop => exact ⟨fun _ _ => rfl, nofun⟩
    | ret => exact ⟨nofun, fun _ => rfl⟩

end Sys2Proof.Machine
end

section
/-! The decoder and the encoder (R60 to R64, R69, R70, 30_encoding.md): each is the other's inverse, and the words it
rejects. -/

namespace Sys2Proof.Machine

variable {i j : Instr} {w : Word} {ws rest : List Word}

/-- The decoder reads an encoding back and leaves the words after it. -/
theorem decode_encode (i : Instr) (rest : List Word) : decode (encode i ++ rest) = .ok (i, rest) := by
  cases i <;> rfl

/-- What decodes is the encoding: word 0 is the opcode as a whole number (R62, 30_encoding.md), the operand words are kept
raw. -/
theorem eq_encode_of_decode (h : decode ws = .ok (i, rest)) : ws = encode i ++ rest := by
  unfold decode at h
  split at h
  · cases h
  · next w ws' =>
    have hopcode (n : Nat) (hn : w.toNat = n) : w = BitVec.ofNat 16 n := by
      rw [← hn, BitVec.ofNat_toNat, BitVec.setWidth_eq]
    split at h
    case h_23 => split at h <;> cases h
    all_goals
      next hw =>
        cases h
        rw [hopcode _ hw]
        rfl

/-- Settles O1: the two directions are the two lemmas above. -/
theorem decodeAgreesWithEncode : Obligations.DecodeAgreesWithEncode := by
  intro ws rest i
  refine ⟨eq_encode_of_decode, ?_⟩
  rintro rfl
  exact decode_encode i rest

/-- Settles O2: only the last row of the decoder rejects, and by the size of the word it tells the two rejections apart. -/
theorem decoderRejectsExactlyMalformedOpcodes : Obligations.DecoderRejectsExactlyMalformedOpcodes := by
  refine fun w ws => ⟨decode_malformed ws, fun hw v h => ?_⟩
  unfold decode at h
  dsimp only at h
  split at h
  case h_23 =>
    rw [if_pos (show w.toNat < 22 by omega)] at h
    cases h
  all_goals cases h

/-- Settles O3: the words written out are encodings with nothing after them. -/
theorem tableWordsDecode : Obligations.TableWordsDecode :=
  ⟨decode_encode .halt [], decode_encode (.set 0x8001#16 0x04D2#16) [],
    decode_encode (.gt 0x8000#16 0x0009#16 0x0003#16) [], decode_encode (.jt 0x0001#16 0x0064#16) [],
    decode_encode (.mod 0x8000#16 0x0007#16 0x0003#16) [], decode_encode (.not 0x8000#16 0x3039#16) [],
    decode_encode (.wmem 0x0064#16 0x0007#16) [], decode_encode (.call 0x0064#16) [], decode_encode (.in_ 0x8000#16) []⟩

/-- An instruction is its opcode and its operand words: no two encodings are one instruction. -/
theorem instr_ext (hop : i.opcode = j.opcode) (hwords : i.operands.map Prod.snd = j.operands.map Prod.snd) : i = j := by
  have hencode : encode i = encode j := by rw [encode_eq_opcode_operands, encode_eq_opcode_operands, hop, hwords]
  have hi := decode_encode i []
  rw [hencode, decode_encode] at hi
  cases hi
  rfl

/-- The operand positions the opcode alone fixes (R73, 30_encoding.md); none for a malformed opcode. -/
def operandKinds (op : Word) : List OperandKind :=
  match decode [op, 0#16, 0#16, 0#16] with
  | .ok (i, _) => i.operands.map Prod.fst
  | .error _ => []

theorem operands_kinds (i : Instr) : i.operands.map Prod.fst = operandKinds i.opcode := by
  cases i <;> rfl

theorem operands_length_of_opcode (hop : i.opcode = j.opcode) : i.operands.length = j.operands.length := by
  rw [← List.length_map Prod.fst, operands_kinds, hop, ← operands_kinds, List.length_map]

/-- No opcode has more than three operand positions (R61, 30_encoding.md). -/
theorem operands_length_le (i : Instr) : i.operands.length ≤ 3 := by
  cases i <;> simp [Instr.operands]

/-- Four words that begin with an opcode never end too early (R60, 30_encoding.md). -/
theorem decode_of_opcode (h : w.toNat < 22) (a b c : Word) : ∃ i rest, decode [w, a, b, c] = .ok (i, rest) := by
  obtain ⟨n, hn, rfl⟩ : ∃ n, n < 22 ∧ w = BitVec.ofNat 16 n := ⟨w.toNat, h, by simp⟩
  interval_cases n <;> exact ⟨_, _, rfl⟩

end Sys2Proof.Machine
end

section
/-! The step of a Running machine (R86 to R88, 40_execute_loop.md): the fetch finds an instruction, or it faults. Operand
words that Memory does not have play no part (log entry 11). -/

namespace Sys2Proof.Machine

open Sys2Proof.Spec

variable {i j : Instr} {s : State} {pc w : Word} {ws rest : List Word}

/-- An address up to 32768 is reached from `pc` without wrapping. -/
theorem toNat_pc_add {n : Nat} (h : pc.toNat + n ≤ 32768) : (pc + BitVec.ofNat 16 n).toNat = pc.toNat + n := by
  rw [BitVec.toNat_add, BitVec.toNat_ofNat]
  omega

/-- The operand phase looks at no word that would stand beyond Memory. -/
theorem operandFault_congr {ops ops' : List (OperandKind × Word)} {n : Nat} (hpc : pc.toNat + n ≤ 32768)
    (hlen : ops.length = ops'.length) (h : ∀ k, pc.toNat + n + k ≤ 32767 → ops[k]? = ops'[k]?) :
    operandFault pc n ops = operandFault pc n ops' := by
  induction ops generalizing n ops' with
  | nil => rw [List.length_eq_zero_iff.1 hlen.symm]
  | cons op ops ih =>
    obtain ⟨op', ops', rfl⟩ := List.exists_cons_of_length_pos (l := ops') (hlen ▸ Nat.succ_pos _)
    rw [operandFault, operandFault, toNat_pc_add hpc]
    by_cases hmem : pc.toNat + n < 32768
    · obtain rfl : op = op' := by simpa using h 0 (by omega)
      rw [ih (by omega) (by simpa using hlen) fun k hk => h (k + 1) (by omega)]
    · rw [if_neg hmem, if_neg hmem]

/-- Two instructions with one opcode whose operands agree as far as Memory has them: either all agree, or the fetch beyond
Memory or an earlier illegal word faults, and faults alike. -/
theorem exec_congr (hpc : s.pc.toNat ≤ 32767) (hop : i.opcode = j.opcode)
    (h : ∀ k, s.pc.toNat + 1 + k ≤ 32767 → i.operands[k]? = j.operands[k]?) : exec i s = exec j s := by
  have hfault : operandFault s.pc 1 i.operands = operandFault s.pc 1 j.operands :=
    operandFault_congr (by omega) (operands_length_of_opcode hop) h
  cases hi : operandFault s.pc 1 i.operands with
  | some p => rw [exec_of_operandFault hi, exec_of_operandFault (hfault ▸ hi), hop]
  | none =>
    have hfits := fits_of_operandFault_none (by omega) hi
    have hops : i.operands = j.operands := by
      refine List.ext_getElem? fun k => ?_
      by_cases hk : k < i.operands.length
      · exact h k (by omega)
      · rw [List.getElem?_eq_none (by omega), List.getElem?_eq_none (by rw [← operands_length_of_opcode hop]; omega)]
    rw [instr_ext hop (by rw [hops])]

/-- Settles O8: the words beyond Memory are not among those that have to agree. -/
theorem wordsBeyondMemoryAreUnused : Obligations.WordsBeyondMemoryAreUnused :=
  fun _ _ _ hpc hop h => exec_congr hpc hop h

theorem step_of_decode (hrun : s.runstate = .running) (hpc : s.pc.toNat ≤ 32767)
    (h : decode (fetchWindow s) = .ok (i, rest)) : step s = exec i s := by
  rw [step, hrun]
  simp [(inMemory_iff s.pc).2 (Nat.lt_succ_of_le hpc), h]

theorem wordAt_eq_readWord {n : Nat} (h : n ≤ 32767) (m : Memory) : wordAt m n = m.readWord n :=
  if_pos (Nat.lt_succ_of_le h)

theorem fetchWindow_getElem? {k : Nat} (hk : k < 4) (s : State) :
    (fetchWindow s)[k]? = some (wordAt s.mem (s.pc.toNat + k)) := by
  interval_cases k <;> rfl

/-- The opcode word at `pc` decides alone whether the fetch finds an instruction, and the instruction's operand words are
those at the addresses after it (R60, R73, 30_encoding.md). -/
theorem decode_fetchWindow (s : State) (h : (wordAt s.mem s.pc.toNat).toNat < 22) :
    ∃ i rest, decode (fetchWindow s) = .ok (i, rest) ∧ i.opcode = wordAt s.mem s.pc.toNat ∧
      ∀ k, k < i.operands.length → (i.operands.map Prod.snd)[k]? = some (wordAt s.mem (s.pc.toNat + 1 + k)) := by
  obtain ⟨i, rest, hdecode⟩ := decode_of_opcode h (wordAt s.mem (s.pc.toNat + 1)) (wordAt s.mem (s.pc.toNat + 2))
    (wordAt s.mem (s.pc.toNat + 3))
  have hwindow : fetchWindow s = i.opcode :: (i.operands.map Prod.snd ++ rest) := by
    rw [← List.cons_append, ← encode_eq_opcode_operands]
    exact eq_encode_of_decode hdecode
  refine ⟨i, rest, hdecode, (List.cons.inj hwindow).1.symm, fun k hk => ?_⟩
  have hlen := operands_length_le i
  have hword := fetchWindow_getElem? (k := k + 1) (by omega) s
  rw [hwindow, List.getElem?_cons_succ, List.getElem?_append_left (by simpa using hk)] at hword
  rw [hword, Nat.add_assoc, Nat.add_comm 1 k]

/-- Operands with the same positions and the same words are the same operands. -/
theorem operands_getElem?_congr {k : Nat} (hop : i.opcode = j.opcode)
    (h : (i.operands.map Prod.snd)[k]? = (j.operands.map Prod.snd)[k]?) : i.operands[k]? = j.operands[k]? := by
  have hkinds : (i.operands.map Prod.fst)[k]? = (j.operands.map Prod.fst)[k]? := by
    rw [operands_kinds, operands_kinds, hop]
  rw [List.getElem?_map, List.getElem?_map] at h hkinds
  cases hi : i.operands[k]? with
  | none => simpa [hi] using h
  | some p =>
    obtain ⟨q, hq, hsnd⟩ : ∃ q, j.operands[k]? = some q ∧ q.2 = p.2 := by simpa [hi, eq_comm] using h
    rw [hq, Option.some.injEq]
    exact Prod.ext (by simpa [hi, hq] using hkinds) hsnd.symm

/-- Settles O7: the fetch decodes an instruction with the opcode and, as far as Memory has them, the operand words of `i`. -/
theorem stepRunsDecodedInstruction : Obligations.StepRunsDecodedInstruction := by
  intro i s hrun hpc hwords
  have hop : wordAt s.mem s.pc.toNat = i.opcode :=
    (wordAt_eq_readWord hpc s.mem).trans (hwords 0 _ (by rw [encode_eq_opcode_operands]; rfl) hpc)
  obtain ⟨j, rest, hdecode, hj, hjwords⟩ := decode_fetchWindow s (hop ▸ opcode_lt i)
  have hji : j.opcode = i.opcode := hj.trans hop
  rw [step_of_decode hrun hpc hdecode]
  refine exec_congr hpc hji fun k hk => ?_
  by_cases hlen : k < i.operands.length
  · refine operands_getElem?_congr hji ?_
    have hword := hwords (k + 1) (i.operands[k]'hlen).2 (by simp [encode_eq_opcode_operands, hlen]) (by omega)
    rw [hjwords k (operands_length_of_opcode hji ▸ hlen), wordAt_eq_readWord hk, Nat.add_assoc, Nat.add_comm 1 k, hword]
    simp [hlen]
  · rw [List.getElem?_eq_none (by rw [operands_length_of_opcode hji]; omega), List.getElem?_eq_none (by omega)]

/-- An instruction without operands is its opcode word alone. -/
theorem step_of_formatN (hops : i.operands = []) (hrun : s.runstate = .running) (hpc : s.pc.toNat ≤ 32767)
    (hop : s.mem.readWord s.pc.toNat = i.opcode) : step s = exec i s := by
  refine stepRunsDecodedInstruction i s hrun hpc fun k w hw _ => ?_
  rw [encode_eq_opcode_operands, hops, List.map_nil, List.getElem?_singleton] at hw
  split at hw
  · next hk =>
    cases hw
    rw [hk]
    exact hop
  · cases hw

/-- The four words placed at `pc` are what the next fetch finds, where Memory has all four (log entry 12). -/
theorem fetchWindow_placeAtPc (hmem : s.mem.wf = true) (hpc : s.pc.toNat ≤ 32764) (hlen : ws.length = 4) :
    fetchWindow (placeAtPc s ws) = ws := by
  refine List.ext_getElem? fun k => ?_
  by_cases hk : k < 4
  · have hread := (wordAt_eq_readWord (n := s.pc.toNat + k) (by omega) (placeAtPc s ws).mem).trans
      (Memory.readWord_writeWords ws s.pc.toNat k hmem (by omega))
    exact (fetchWindow_getElem? hk _).trans ((congrArg some hread).trans (by simp [hlen, hk]))
  · rw [List.getElem?_eq_none (Nat.not_lt.1 hk), List.getElem?_eq_none (by omega)]

/-- Settles O11: the next fetch finds the four words placed, and the table's bits decode to `i` in them. -/
theorem placedInstructionRunsNext : Obligations.PlacedInstructionRunsNext := by
  intro nbits w i s hmem hpc htable
  have hwindow : fetchWindow (s.withFetchWord nbits w) = tableWords nbits w := fetchWindow_placeAtPc hmem hpc rfl
  unfold decodeTableWord at htable
  split at htable
  · next i' rest hdecode =>
    cases htable
    exact step_of_decode rfl (show s.pc.toNat ≤ 32767 by omega) (hwindow ▸ hdecode)
  · cases htable

theorem opcodeFetchFault_eq_faultedAt (s : State) :
    opcodeFetchFault s = faultedAt s 0#16 .addressOutOfRange s.pc 0 := by
  simp [opcodeFetchFault, takeFault, faultedAt]

theorem step_beyond_memory (hrun : s.runstate = .running) (hpc : 32768 ≤ s.pc.toNat) :
    step s = .next (faultedAt s 0#16 .addressOutOfRange s.pc 0) := by
  rw [step, hrun, ← opcodeFetchFault_eq_faultedAt]
  simp [inMemory, show ¬ s.pc.toNat < 32768 by omega]

/-- Settles O9: the range check comes before the fetch, so nothing is decoded. -/
theorem opcodeFetchBeyondMemoryFaults : Obligations.OpcodeFetchBeyondMemoryFaults :=
  fun _ hrun hpc => step_beyond_memory hrun hpc

end Sys2Proof.Machine
end

section
/-! The faults of the operand phase (R187, R188, R192 (ii), R194, 60_exceptions.md) against the first illegal operand that
Memory has. -/

namespace Sys2Proof.Machine

open Sys2Proof.Spec

variable {i : Instr} {s t : State} {k : Fault} {w pc : Word} {n m : Nat} {ops : List (OperandKind × Word)}

/-- The operand phase with Memory ending after `m` more words: the first illegal operand before the end, or else the fetch
at 32768, if there is one. -/
theorem operandFault_eq_firstIllegal_or (hm : pc.toNat + n + m = 32768) :
    operandFault pc n ops = (firstIllegal n (ops.take m)).or
      (if m < ops.length then some (.addressOutOfRange, 32768#16, n + m) else none) := by
  induction ops generalizing n m with
  | nil => simp [operandFault, firstIllegal]
  | cons op ops ih =>
    have haddr : (pc + BitVec.ofNat 16 n).toNat = pc.toNat + n := toNat_pc_add (by omega)
    rw [operandFault, haddr]
    cases m with
    | zero =>
      have hend : pc + BitVec.ofNat 16 n = 32768#16 := BitVec.eq_of_toNat_eq (haddr.trans hm)
      rw [if_neg (by omega)]
      simp [hend, firstIllegal]
    | succ m =>
      rw [if_pos (by omega), List.take_succ_cons, firstIllegal_cons, ih (m := m) (by omega)]
      by_cases hlegal : op.1.legal op.2 = true
      · simp [hlegal, Nat.add_assoc, Nat.add_comm 1 m]
      · simp [hlegal]

/-- Settles O15: the operand phase that passes no illegal word before the end of Memory fetches at 32768. -/
theorem operandFetchBeyondMemoryFaults : Obligations.OperandFetchBeyondMemoryFaults := by
  intro i s hpc hlen
  have hfault := operandFault_eq_firstIllegal_or (pc := s.pc) (n := 1) (m := 32767 - s.pc.toNat) (ops := i.operands)
    (by omega)
  refine ⟨fun hlegal => ?_, fun k w n hillegal => ?_⟩
  · rw [hlegal, Option.none_or, if_pos (by omega), show 1 + (32767 - s.pc.toNat) = 32768 - s.pc.toNat by omega] at hfault
    exact exec_of_operandFault hfault
  · rw [hillegal, Option.some_or] at hfault
    exact exec_of_operandFault hfault

/-- Where the first illegal operand stands: `m` words have been fetched with it, `n` before the list. -/
theorem firstIllegal_source (h : firstIllegal n ops = some (k, w, m)) :
    n < m ∧ ∃ kind, ops[m - n - 1]? = some (kind, w) ∧ OperandKind.legal kind w = false ∧ k = kind.fault := by
  induction ops generalizing n with
  | nil => cases h
  | cons op ops ih =>
    rw [firstIllegal_cons] at h
    split at h
    · obtain ⟨hlt, hsource⟩ := ih h
      refine ⟨by omega, ?_⟩
      rwa [show m - n - 1 = m - (n + 1) - 1 + 1 by omega, List.getElem?_cons_succ]
    · next hillegal =>
      cases h
      exact ⟨by omega, op.1, by simp, by simpa using hillegal, rfl⟩

theorem illegal_val_iff (w : Word) : OperandKind.legal .val w = false ↔ 32776 ≤ w.toNat := by
  simp [OperandKind.legal]
  omega

/-- R187 (60_exceptions.md) as the condition under which the operand phase raises it. -/
theorem operandFault_eq_invalidOperand_iff (hpc : pc.toNat ≤ 32767) :
    operandFault pc 1 ops = some (.invalidOperand, w, n) ↔
      firstIllegal 1 (ops.take (32767 - pc.toNat)) = some (.invalidOperand, w, n) := by
  rw [operandFault_eq_firstIllegal_or (m := 32767 - pc.toNat) (by omega), Option.or_eq_some_iff]
  refine or_iff_left fun ⟨_, h⟩ => ?_
  split at h <;> cases h

theorem val_mem_operands_iff (i : Instr) : (∃ w, (OperandKind.val, w) ∈ i.operands) ↔
    ¬ (i = .halt ∨ (∃ a, i = .pop a) ∨ i = .ret ∨ (∃ a, i = .in_ a) ∨ i = .noop) := by
  cases i <;> simp [Instr.operands]

/-- Settles O13: no handler's check is of this kind, so the operand phase decides. -/
theorem invalidOperandFaults : Obligations.InvalidOperandFaults := by
  refine ⟨val_mem_operands_iff, fun i s hrun hpc => ?_⟩
  obtain ⟨t, he⟩ := exec_answers_next i s
  have hstate (w : Word) (n : Nat)
      (h : firstIllegal 1 (i.operands.take (32767 - s.pc.toNat)) = some (.invalidOperand, w, n)) :
      t = faultedAt s i.opcode .invalidOperand w n := by
    cases he.symm.trans (exec_of_operandFault ((operandFault_eq_invalidOperand_iff hpc).2 h))
    rfl
  refine ⟨t, he, ⟨fun ht => ?_, fun ⟨w, n, h⟩ => hstate w n h ▸ takes_faultedAt s i.opcode w n⟩, fun w n h => ?_⟩
  · obtain ⟨w, n, -, hoperand | ⟨-, hcheck⟩⟩ := fault_of_takes hrun he ht
    · exact ⟨w, n, (operandFault_eq_invalidOperand_iff hpc).1 hoperand⟩
    · cases hcheck
  · obtain ⟨-, _ | _, hword, hillegal, hkind⟩ := firstIllegal_source h
    · cases hkind
    · refine ⟨(illegal_val_iff w).1 hillegal, ?_, hstate w n h⟩
      rw [List.getElem?_take] at hword
      split at hword
      · exact hword
      · cases hword

end Sys2Proof.Machine
end

section
/-! What a step can do, said once (R85 to R94, 40_execute_loop.md): Halted and Faulted stay; a Running machine executes the
instruction its opcode word names, or its opcode fetch faults. -/

namespace Sys2Proof.Machine

open Sys2Proof.Spec

variable {i : Instr} {s t : State} {k : Fault} {w v pc fop : Word} {n m : Nat} {ops : List (OperandKind × Word)}

/-- The two faults before dispatch: R192 (i) and R186 (60_exceptions.md). -/
inductive FetchFault : State → State → Prop
  | beyond {s : State} (hpc : 32768 ≤ s.pc.toNat) : FetchFault s (faultedAt s 0#16 .addressOutOfRange s.pc 0)
  | malformed {s : State} (hpc : s.pc.toNat ≤ 32767) (hop : 22 ≤ (s.mem.readWord s.pc.toNat).toNat) :
      FetchFault s (faultedAt s (s.mem.readWord s.pc.toNat) .malformedOpcode (s.mem.readWord s.pc.toNat) 1)

theorem step_of_not_running (h : s.runstate ≠ .running) : step s = .next s := by
  unfold step
  cases hs : s.runstate with
  | running => exact absurd hs h
  | halted => rfl
  | faulted => rfl

theorem currentInstr_of_not_running (h : s.runstate ≠ .running) : currentInstr s = none := by
  unfold currentInstr
  cases hs : s.runstate with
  | running => exact absurd hs h
  | halted => rfl
  | faulted => rfl

theorem currentInstr_beyond_memory (hpc : 32768 ≤ s.pc.toNat) : currentInstr s = none := by
  unfold currentInstr
  rw [inMemory, decide_eq_false (show ¬ s.pc.toNat < Config.memWords from Nat.not_lt.2 hpc)]
  cases s.runstate <;> rfl

theorem currentInstr_of_malformed (hop : 22 ≤ (wordAt s.mem s.pc.toNat).toNat) : currentInstr s = none := by
  unfold currentInstr
  rw [fetchWindow, decode_malformed _ hop]
  cases s.runstate <;> cases inMemory s.pc <;> rfl

theorem currentInstr_of_decode {rest : List Word} (hrun : s.runstate = .running) (hpc : s.pc.toNat ≤ 32767)
    (h : decode (fetchWindow s) = .ok (i, rest)) : currentInstr s = some i := by
  rw [currentInstr, hrun]
  simp [(inMemory_iff s.pc).2 (Nat.lt_succ_of_le hpc), h]

/-- The step of a Running machine. -/
theorem step_running (hrun : s.runstate = .running) :
    (∃ i, s.pc.toNat ≤ 32767 ∧ i.opcode = s.mem.readWord s.pc.toNat ∧ currentInstr s = some i ∧ step s = exec i s) ∨
      (currentInstr s = none ∧ ∃ t, FetchFault s t ∧ step s = .next t) := by
  by_cases hpc : s.pc.toNat ≤ 32767
  · have hword := wordAt_eq_readWord hpc s.mem
    by_cases hop : 22 ≤ (s.mem.readWord s.pc.toNat).toNat
    · exact .inr ⟨currentInstr_of_malformed (hword ▸ hop), _, .malformed hpc hop, malformedOpcodeFaults.1 s hrun hpc hop⟩
    · obtain ⟨i, rest, hdecode, hi, -⟩ := decode_fetchWindow s (by rw [hword]; omega)
      exact .inl ⟨i, hpc, hi.trans hword, currentInstr_of_decode hrun hpc hdecode, step_of_decode hrun hpc hdecode⟩
  · exact .inr ⟨currentInstr_beyond_memory (by omega), _, .beyond (by omega), step_beyond_memory hrun (by omega)⟩

/-- Settles O42: every way a step can go answers a next state. -/
theorem everyStepIsDefined : Obligations.EveryStepIsDefined := by
  intro s
  by_cases hrun : s.runstate = .running
  · rcases step_running hrun with ⟨i, -, -, -, e⟩ | ⟨-, t, -, e⟩
    · rw [e]
      exact exec_answers_next i s
    · exact ⟨t, e⟩
  · exact ⟨s, step_of_not_running hrun⟩

/-- A state whose step changes nothing stays for any number of steps. -/
theorem run_of_step_self {M : Host.Core} {s : M.State} (h : M.step s = .next s) (k : Nat) : M.run k s = .next s := by
  induction k with
  | zero => rfl
  | succ k ih =>
    rw [Host.Core.run, h]
    exact ih

/-- Settles O41: no instruction is current, and the step changes nothing. -/
theorem terminalStatesAreFrozen : Obligations.TerminalStatesAreFrozen := by
  intro s hrun
  have hnone := currentInstr_of_not_running hrun
  refine ⟨run_of_step_self (M := Sys2Proof.core) (step_of_not_running hrun), ?_, ?_, ?_⟩
  · simp [State.ports, outPort, hnone]
  · simp [State.ports, inReq, hnone]
  · cases hs : s.runstate with
    | running => exact absurd hs hrun
    | halted => simp [State.Final, hs]
    | faulted => simp [State.Final, hs]

/-! ## Where a fault of `exec` comes from -/

/-- A Running machine's `exec` ends Faulted by the first operand fault or by a handler's check (R195, 60_exceptions.md). -/
theorem fault_of_exec (hrun : s.runstate = .running) (he : exec i s = .next t) (hfaulted : t.runstate = .faulted) :
    ∃ k v n, t = faultedAt s i.opcode k v n ∧
      (operandFault s.pc 1 i.operands = some (k, v, n) ∨ HandlerFault i s (k, v, n)) := by
  rcases exec_next he with ⟨⟨k, v, n⟩, hp, rfl⟩ | ⟨-, hends⟩
  · exact ⟨k, v, n, rfl, .inl hp⟩
  · obtain ⟨⟨k, v, n⟩, hcheck, rfl⟩ := handlerFault_of_ends hends hrun hfaulted
    exact ⟨k, v, n, rfl, .inr hcheck⟩

/-- The operand phase fetches its own words only (R196, 60_exceptions.md). -/
theorem operandFault_count_le (h : operandFault pc n ops = some (k, w, m)) : m ≤ n + ops.length := by
  induction ops generalizing n with
  | nil => cases h
  | cons op ops ih =>
    rw [List.length_cons]
    rw [operandFault] at h
    split at h
    · split at h
      · have := ih h
        omega
      · cases h
        omega
    · cases h
      omega

theorem handlerFault_count_le (h : HandlerFault i s (k, v, n)) : n ≤ 4 := by
  cases h <;> omega

/-- AddressOutOfRange in the operand phase records an address Memory does not have (R192, 60_exceptions.md). -/
theorem operandFault_addressOutOfRange (h : operandFault pc n ops = some (.addressOutOfRange, w, m)) :
    32768 ≤ w.toNat := by
  induction ops generalizing n with
  | nil => cases h
  | cons op ops ih =>
    obtain ⟨kind, x⟩ := op
    rw [operandFault] at h
    split at h
    · split at h
      · exact ih h
      · cases kind <;> cases h
    · cases h
      omega

theorem opcode_eq_zero_iff (i : Instr) : i.opcode = 0#16 ↔ i = .halt := by
  cases i <;> simp [Instr.opcode, encode]

/-- The operand phase faults with a record R193 (60_exceptions.md) allows. -/
theorem legal_of_operandFault (hpc : pc.toNat ≤ 32767) (h : operandFault pc 1 i.operands = some (k, w, m)) :
    FaultRecord.legal { fkind := some k, faddr := pc, fop := i.opcode, fval := w } := by
  have hop := opcode_lt i
  have haddr : pc.toNat < 32768 := Nat.lt_succ_of_le hpc
  rcases operandFault_source h with rfl | ⟨_ | _, -, hillegal, rfl⟩
  · have hpos : i.opcode ≠ 0#16 := fun h0 => by
      rw [(opcode_eq_zero_iff i).1 h0] at h
      cases h
    exact ⟨operandFault_addressOutOfRange h, .inr ⟨by bv_omega, hop, haddr⟩⟩
  · exact ⟨(illegal_reg_iff w).1 hillegal, hop, haddr⟩
  · exact ⟨(illegal_val_iff w).1 hillegal, hop, haddr⟩

/-- So does every handler's check. -/
theorem legal_of_handlerFault (hpc : s.pc.toNat ≤ 32767) (h : HandlerFault i s (k, v, n)) :
    FaultRecord.legal { fkind := some k, faddr := s.pc, fop := i.opcode, fval := v } := by
  have haddr : s.pc.toNat < 32768 := Nat.lt_succ_of_le hpc
  cases h with
  | push => exact ⟨rfl, .inl rfl, haddr⟩
  | call => exact ⟨rfl, .inr rfl, haddr⟩
  | pop => exact ⟨rfl, .inl rfl, haddr⟩
  | ret => exact ⟨rfl, .inr rfl, haddr⟩
  | mod => exact ⟨rfl, rfl, haddr⟩
  | rmem _ _ hbeyond => exact ⟨Nat.not_lt.1 hbeyond, .inr ⟨Nat.one_le_iff_ne_zero.2 nofun, opcode_lt _, haddr⟩⟩
  | wmem _ _ hbeyond => exact ⟨Nat.not_lt.1 hbeyond, .inr ⟨Nat.one_le_iff_ne_zero.2 nofun, opcode_lt _, haddr⟩⟩

/-- A step that faults leaves all but `pc`, `runstate` and the record, and a record R193 (60_exceptions.md) allows. -/
theorem faultedAt_of_step (hrun : s.runstate = .running) (hstep : step s = .next t) (hfaulted : t.runstate = .faulted) :
    ∃ fop k v n, n ≤ 4 ∧ t = faultedAt s fop k v n ∧
      FaultRecord.legal { fkind := some k, faddr := s.pc, fop := fop, fval := v } := by
  rcases step_running hrun with ⟨i, hpc, -, -, e⟩ | ⟨-, u, hfetch, e⟩
  · obtain ⟨k, v, n, rfl, hoperand | hcheck⟩ := fault_of_exec hrun (e ▸ hstep) hfaulted
    · have hcount := operandFault_count_le hoperand
      have hlen := operands_length_le i
      exact ⟨_, k, v, n, by omega, rfl, legal_of_operandFault hpc hoperand⟩
    · exact ⟨_, k, v, n, handlerFault_count_le hcheck, rfl, legal_of_handlerFault hpc hcheck⟩
  · cases e.symm.trans hstep
    cases hfetch with
    | beyond hpc => exact ⟨_, _, _, 0, by omega, rfl, hpc, .inl ⟨rfl, rfl⟩⟩
    | malformed hpc hop => exact ⟨_, _, _, 1, by omega, rfl, hop, rfl, Nat.lt_succ_of_le hpc⟩

/-- A step of a Running machine that does not fault is an end of the instruction its opcode word names. -/
theorem ends_of_step (hrun : s.runstate = .running) (hstep : step s = .next t) (hok : t.runstate ≠ .faulted) :
    ∃ i, s.pc.toNat ≤ 32767 ∧ i.opcode = s.mem.readWord s.pc.toNat ∧ Ends i s t := by
  rcases step_running hrun with ⟨i, hpc, hop, -, e⟩ | ⟨-, u, hfetch, e⟩
  · rcases exec_next (e ▸ hstep) with ⟨p, -, rfl⟩ | ⟨-, hends⟩
    · exact absurd rfl hok
    · exact ⟨i, hpc, hop, hends⟩
  · cases e.symm.trans hstep
    cases hfetch <;> exact absurd rfl hok

/-- Settles O40: both faults before dispatch and both kinds of fault of `exec` are of this form. -/
theorem faultingStepChangesNoData : Obligations.FaultingStepChangesNoData := by
  intro s t hrun hstep hfaulted
  obtain ⟨fop, k, v, n, hn, ht, -⟩ := faultedAt_of_step hrun hstep hfaulted
  exact ⟨fop, k, v, n, hn, ht⟩

/-! ## The run state and the fault record -/

/-- Of the ends that do not fault, `halt`'s alone leaves Running. -/
theorem runstate_of_ends (h : Ends i s t) (hok : t.runstate ≠ .faulted) :
    i = .halt ∧ t.runstate = .halted ∨ i ≠ .halt ∧ t.runstate = s.runstate := by
  cases h with
  | halt => exact .inl ⟨rfl, rfl⟩
  | pushFull | popEmpty | modZero | rmemBeyond | wmemBeyond | callFull | retEmpty => exact absurd rfl hok
  | _ => exact .inr ⟨nofun, rfl⟩

theorem faultRec_of_ends (h : Ends i s t) (hok : t.runstate ≠ .faulted) : t.faultRec = s.faultRec := by
  cases h with
  | pushFull | popEmpty | modZero | rmemBeyond | wmemBeyond | callFull | retEmpty => exact absurd rfl hok
  | _ => rfl

theorem halted_iff_of_ends (hrun : s.runstate = .running) (h : Ends i s t) (hok : t.runstate ≠ .faulted) :
    t.runstate = .halted ↔ i = .halt := by
  rcases runstate_of_ends h hok with ⟨hi, ht⟩ | ⟨hi, ht⟩
  · exact iff_of_true ht hi
  · exact iff_of_false (by simp [ht, hrun]) hi

/-- A step halts exactly on the opcode 0 in Memory. -/
theorem halted_iff_of_step (hrun : s.runstate = .running) (hstep : step s = .next t) :
    t.runstate = .halted ↔ s.pc.toNat ≤ 32767 ∧ s.mem.readWord s.pc.toNat = 0#16 := by
  refine ⟨fun hhalted => ?_, fun ⟨hpc, hop⟩ => ?_⟩
  · have hok : t.runstate ≠ .faulted := by simp [hhalted]
    obtain ⟨i, hpc, hop, hends⟩ := ends_of_step hrun hstep hok
    exact ⟨hpc, hop ▸ (opcode_eq_zero_iff i).2 ((halted_iff_of_ends hrun hends hok).1 hhalted)⟩
  · cases hstep.symm.trans ((step_of_formatN (i := .halt) rfl hrun hpc hop).trans (haltStops s))
    rfl

/-- Settles O43: a step that does not fault is an end of the instruction, and a fault records its kind. -/
theorem runStateTransitions : Obligations.RunStateTransitions := by
  intro s t hrun hstep
  refine ⟨halted_iff_of_step hrun hstep, fun hok => ?_, fun hfaulted => ?_⟩
  · obtain ⟨i, -, -, hends⟩ := ends_of_step hrun hstep hok
    exact faultRec_of_ends hends hok
  · obtain ⟨fop, k, v, n, -, rfl, -⟩ := faultedAt_of_step hrun hstep hfaulted
    exact ⟨k, rfl⟩

end Sys2Proof.Machine
end

section
/-! The Console Input Buffer's one request (R174, 49_io.md): which byte it gives, and what it leaves. -/

namespace Sys2Proof.Machine

variable {b : Byte} {c c' : Console}

/-- A request that is answered takes the byte under the cursor, or reads the next line with a byte in it. -/
theorem next?_some_cases (h : c.next? = some (b, c')) :
    (c.current = some b ∧ c' = { c with cursor := c.cursor + 1 }) ∨
      (c.current = none ∧ ∃ l ls, Console.firstLine c.source = some (b, l, ls) ∧
        c' = { mode := .ready, line := b :: l, cursor := 1, source := ls }) := by
  unfold Console.next? at h
  split at h
  · next b' hcur =>
    cases h
    exact .inl ⟨hcur, rfl⟩
  · next hcur =>
    split at h
    · next b' l ls hline =>
      cases h
      exact .inr ⟨hcur, l, ls, hline, rfl⟩
    · cases h

theorem next?_none_cases (h : c.next? = none) : c.current = none ∧ Console.firstLine c.source = none := by
  unfold Console.next? at h
  split at h
  · cases h
  · next hcur =>
    split at h
    · cases h
    · next hline => exact ⟨hcur, hline⟩

/-- The byte given is the first of what is left, and the rest stays. -/
theorem remainder_of_next? (h : c.next? = some (b, c')) : c.remainder = b :: c'.remainder := by
  rcases next?_some_cases h with ⟨hcur, rfl⟩ | ⟨hcur, l, ls, hline, rfl⟩
  · obtain ⟨hmode, hdrop⟩ := Console.current_some hcur
    simp only [Console.remainder, hmode, hdrop, List.cons_append]
  · rw [Console.current_none hcur, Console.firstLine_some hline]
    rfl

theorem next?_none_iff (c : Console) : c.next? = none ↔ c.remainder = [] := by
  refine ⟨fun h => ?_, fun h => ?_⟩
  · obtain ⟨hcur, hline⟩ := next?_none_cases h
    rw [Console.current_none hcur, Console.firstLine_none hline]
  · cases hn : c.next? with
    | none => rfl
    | some p =>
      rw [remainder_of_next? (b := p.1) (c' := p.2) hn] at h
      cases h

/-- The buffer gives a byte exactly when one is left. -/
theorem exists_next?_of_remainder {cs : List Byte} (h : c.remainder = b :: cs) :
    ∃ c', c.next? = some (b, c') ∧ c'.remainder = cs := by
  cases hn : c.next? with
  | none =>
    rw [(next?_none_iff c).1 hn] at h
    cases h
  | some p =>
    obtain ⟨b', c'⟩ := p
    cases (remainder_of_next? hn).symm.trans h
    exact ⟨c', rfl, rfl⟩

/-- A request leaves the buffer in a state R173 (49_io.md) allows. -/
theorem wf_of_next? (h : c.next? = some (b, c')) : c'.wf = true := by
  rcases next?_some_cases h with ⟨hcur, rfl⟩ | ⟨hcur, l, ls, hline, rfl⟩
  · obtain ⟨hmode, hdrop⟩ := Console.current_some hcur
    have hlt : c.cursor < c.line.length := by
      by_contra hge
      simp [List.drop_eq_nil_of_le (Nat.not_lt.1 hge)] at hdrop
    simpa [Console.wf, hmode] using Nat.succ_le_of_lt hlt
  · simp [Console.wf]

/-- The byte at the port is the first of what is left (R24, 10_state.md). -/
theorem inPort_eq_head? (s : State) : inPort s = s.console.remainder.head? := by
  unfold inPort
  cases hn : s.console.next? with
  | none => rw [(next?_none_iff _).1 hn]; rfl
  | some p => rw [remainder_of_next? (b := p.1) (c' := p.2) hn]; rfl

end Sys2Proof.Machine
end

section
/-! The invariant (10_state.md, sections 4 and 5; 60_exceptions.md, section 1): kept by every end of an instruction, and by
the taking of a fault. -/

namespace Sys2Proof.Machine

open Sys2Proof.Spec

variable {i : Instr} {s t : State} {k : Fault} {v fop : Word} {n : Nat}

theorem wf_mem_of_ends (h : Ends i s t) (hs : s.mem.wf = true) : t.mem.wf = true := by
  cases h with
  | wmem _ _ hm => exact Memory.wf_writeWord hm _ hs
  | _ => exact hs

theorem depth_of_ends (h : Ends i s t) (hs : s.stack.length ≤ 32768) : t.stack.length ≤ 32768 := by
  cases h with
  | push _ hroom | call _ hroom => exact Nat.lt_of_le_of_ne hs hroom
  | pop _ hstack | ret hstack =>
    rw [hstack, List.length_cons] at hs
    exact Nat.le_of_succ_le hs
  | _ => exact hs

theorem wf_console_of_ends (h : Ends i s t) (hs : s.console.wf = true) : t.console.wf = true := by
  cases h with
  | in_ _ hnext => exact wf_of_next? hnext
  | _ => exact hs

/-- Outside Faulted the record of a legal state is clear (R18, 10_state.md). -/
theorem fkind_of_inv (hs : s.Inv) (hok : s.runstate ≠ .faulted) : s.faultRec.fkind = none := by
  rw [← Option.not_isSome_iff_eq_none, hs.recorded]
  exact hok

theorem inv_of_ends (h : Ends i s t) (hs : s.Inv) (hrun : s.runstate = .running) (hok : t.runstate ≠ .faulted) :
    t.Inv where
  memory := wf_mem_of_ends h hs.memory
  depth := depth_of_ends h hs.depth
  recorded := by
    rw [faultRec_of_ends h hok, fkind_of_inv hs (by simp [hrun])]
    simpa using hok
  record := by
    rw [faultRec_of_ends h hok]
    exact hs.record
  buffer := wf_console_of_ends h hs.buffer

theorem inv_of_faultedAt (hs : s.Inv)
    (hlegal : FaultRecord.legal { fkind := some k, faddr := s.pc, fop := fop, fval := v }) :
    (faultedAt s fop k v n).Inv where
  memory := hs.memory
  depth := hs.depth
  recorded := iff_of_true rfl rfl
  record := hlegal
  buffer := hs.buffer

/-- Settles O5: a step stays, takes a fault with a legal record, or is an end of the instruction at `pc`. -/
theorem stepKeepsInv : Obligations.StepKeepsInv := by
  intro s t hs hstep
  by_cases hrun : s.runstate = .running
  · by_cases hfaulted : t.runstate = .faulted
    · obtain ⟨fop, k, v, n, -, rfl, hlegal⟩ := faultedAt_of_step hrun hstep hfaulted
      exact inv_of_faultedAt hs hlegal
    · obtain ⟨i, -, -, hends⟩ := ends_of_step hrun hstep hfaulted
      exact inv_of_ends hends hs hrun hfaulted
  · cases (step_of_not_running hrun).symm.trans hstep
    exact hs

end Sys2Proof.Machine
end

section
/-! `mod`, `and` and `or` (R132, 45_arith.md; R140, R141, 46_logic.md): the words the last two write, bit by bit, and the
two ends of `mod`. -/

namespace Sys2Proof.Machine

open Sys2Proof.Spec

variable {a b c vb vc : Word} {r : Reg} {i : Instr} {s : State}

theorem andWord_getLsbD (vb vc : Word) (k : Nat) :
    (andWord vb vc).getLsbD k = (decide (k < 15) && (vb.getLsbD k && vc.getLsbD k)) := by
  rw [andWord, BitVec.getLsbD_and, BitVec.getLsbD_and, mask15_getLsbD, Bool.and_comm]

theorem orWord_getLsbD (vb vc : Word) (k : Nat) :
    (orWord vb vc).getLsbD k = (decide (k < 15) && (vb.getLsbD k || vc.getLsbD k)) := by
  rw [orWord, BitVec.getLsbD_and, BitVec.getLsbD_or, mask15_getLsbD, Bool.and_comm]

/-- Settles O29: with the operands resolved, `and` writes `andWord`, which R140 gives bit by bit. -/
theorem andKeepsFifteenBits : Obligations.AndKeepsFifteenBits := by
  intro a b c s hfits
  refine ⟨fun r vb vc ha hb hc => ?_, faultsOnIllegalOperand_of_fits hfits⟩
  exact ⟨andWord vb vc, andWord_getLsbD vb vc, exec_of_writes_of_resolves rfl hfits ha hb hc⟩

/-- Settles O30: with the operands resolved, `or` writes `orWord`, which R141 gives bit by bit. -/
theorem orKeepsFifteenBits : Obligations.OrKeepsFifteenBits := by
  intro a b c s hfits
  refine ⟨fun r vb vc ha hb hc => ?_, faultsOnIllegalOperand_of_fits hfits⟩
  exact ⟨orWord vb vc, orWord_getLsbD vb vc, exec_of_writes_of_resolves rfl hfits ha hb hc⟩

/-- Format `RVV` (R61, 30_encoding.md), whichever instruction has it. -/
theorem wf_of_formatRVV_resolves (hops : i.operands = [(.reg, a), (.val, b), (.val, c)])
    (ha : resolveRegisterIndex a = some r) (hb : resolveValue b s = some vb) (hc : resolveValue c s = some vc) :
    i.wf = true := by
  simp [Instr.wf, hops, legal_reg_of_resolves ha, legal_val_of_resolves hb, legal_val_of_resolves hc]

/-- Settles O28: with the operands resolved, the divisor alone chooses between the two ends of `mod`. -/
theorem modTakesRemainder : Obligations.ModTakesRemainder := by
  intro a b c s hfits
  refine ⟨fun r vb vc ha hb hc => ?_, faultsOnIllegalOperand_of_fits hfits⟩
  obtain ⟨t, hends, e⟩ := exec_ends_of_fits hfits (wf_of_formatRVV_resolves rfl ha hb hc)
  cases hends with
  | mod ha' hb' hc' hnonzero =>
    cases ha.symm.trans ha'
    cases hb.symm.trans hb'
    cases hc.symm.trans hc'
    exact ⟨fun _ => e, fun hzero => absurd hzero hnonzero⟩
  | modZero _ _ hc' =>
    cases hc.symm.trans hc'
    exact ⟨fun hnonzero => absurd rfl hnonzero, fun _ => e⟩

end Sys2Proof.Machine
end

section
/-! `rmem` and `wmem` (R150, R151, 47_memory_ops.md): the address alone chooses between the access and the fault. -/

namespace Sys2Proof.Machine

open Sys2Proof.Spec

variable {a b addr v : Word} {s : State}

/-- Settles O32: of the two ends of `rmem`, the address has one. -/
theorem rmemLoadsWholeWord : Obligations.RmemLoadsWholeWord := by
  intro a b s hfits
  refine ⟨fun r addr ha hb => ?_, faultsOnIllegalOperand_of_fits hfits⟩
  obtain ⟨t, hends, e⟩ := exec_ends_of_fits hfits (wf_of_formatRV_resolves rfl ha hb)
  cases hends with
  | rmem ha' hb' hmem =>
    cases ha.symm.trans ha'
    cases hb.symm.trans hb'
    exact ⟨fun _ => e, fun hbeyond => by omega⟩
  | rmemBeyond _ hb' hbeyond =>
    cases hb.symm.trans hb'
    exact ⟨fun hmem => by omega, fun _ => e⟩

theorem exec_wmem_of_resolves (hfits : Fits (.wmem a b) s) (ha : resolveValue a s = some addr)
    (hb : resolveValue b s = some v) :
    exec (.wmem a b) s = .next (if addr.toNat ≤ 32767 then
      { s with mem := s.mem.writeWord addr.toNat v, pc := s.pc + 3#16 }
      else faultedAt s 16#16 .addressOutOfRange addr 3) := by
  obtain ⟨t, hends, e⟩ := exec_ends_of_fits hfits (wf_of_formatVV_resolves rfl ha hb)
  cases hends with
  | wmem ha' hb' hmem =>
    cases ha.symm.trans ha'
    cases hb.symm.trans hb'
    rw [if_pos (by omega)]
    exact e
  | wmemBeyond ha' hb' hbeyond =>
    cases ha.symm.trans ha'
    rw [if_neg (by omega)]
    exact e

/-- Settles O33: what the stored word reads as is the law of a Memory write. -/
theorem wmemStoresWholeWord : Obligations.WmemStoresWholeWord := by
  intro a b s hfits hmem
  refine ⟨fun addr v ha hb => ?_, faultsOnIllegalOperand_of_fits hfits⟩
  have e := exec_wmem_of_resolves hfits ha hb
  refine ⟨fun hin => ?_, fun hbeyond => ?_⟩
  · rw [if_pos hin] at e
    exact ⟨_, e, Memory.readWord_writeWord_same (by omega) v hmem, fun n hn => Memory.readWord_writeWord_ne hn v _⟩
  · rwa [if_neg (by omega)] at e

/-- Settles O50: the word read is the one written, or another one. -/
theorem readReturnsLatestWrite : Obligations.ReadReturnsLatestWrite := by
  intro m n v hm hn
  refine ⟨Memory.wf_writeWord (by omega) v hm, fun k => ?_⟩
  by_cases hk : k = n
  · rw [if_pos hk, hk, Memory.readWord_writeWord_same (by omega) v hm]
  · rw [if_neg hk, Memory.readWord_writeWord_ne hk]

/-- A canonical list has no cell beyond Memory. -/
theorem readByte_beyond {lo k : Nat} (hk : 65536 ≤ k) {m : Memory} (hm : Memory.wfFrom lo m = true) :
    m.readByte k = 0#8 := by
  induction m generalizing lo with
  | nil => rfl
  | cons cell m ih =>
    obtain ⟨key, v⟩ := cell
    simp only [Memory.wfFrom, Bool.and_eq_true, decide_eq_true_eq, Config.memWords] at hm
    obtain ⟨⟨⟨-, hkey⟩, -⟩, htail⟩ := hm
    rw [Memory.readByte, if_neg (by omega), ih htail]

/-- Words that agree have bytes that agree. -/
theorem readByte_eq_of_readWord_eq {m m' : Memory} {n : Nat} (h : m.readWord n = m'.readWord n) :
    m.readByte (2 * n) = m'.readByte (2 * n) ∧ m.readByte (2 * n + 1) = m'.readByte (2 * n + 1) := by
  have hnat := congrArg BitVec.toNat h
  rw [Memory.readWord_toNat, Memory.readWord_toNat] at hnat
  have hlow := (m.readByte (2 * n)).isLt
  have hlow' := (m'.readByte (2 * n)).isLt
  exact ⟨BitVec.eq_of_toNat_eq (by omega), BitVec.eq_of_toNat_eq (by omega)⟩

/-- Settles O51: the words fix every byte, and the bytes fix a canonical list. -/
theorem canonicalMemoryIsUnique : Obligations.CanonicalMemoryIsUnique := by
  intro m m' hm hm' hwords
  refine Memory.eq_of_readByte hm hm' fun k => ?_
  by_cases hk : k < 65536
  · obtain ⟨hlow, hhigh⟩ := readByte_eq_of_readWord_eq (hwords (k / 2) (by omega))
    rcases Nat.mod_two_eq_zero_or_one k with h | h
    · rwa [show 2 * (k / 2) = k by omega] at hlow
    · rwa [show 2 * (k / 2) + 1 = k by omega] at hhigh
  · rw [readByte_beyond (Nat.not_lt.1 hk) hm, readByte_beyond (Nat.not_lt.1 hk) hm']

/-- Settles O52: the store leaves the word where the next fetch looks, and R186 or R101 says what the next step does. -/
theorem storeIsSeenByNextFetch : Obligations.StoreIsSeenByNextFetch := by
  intro a b addr v s hrun hmem hpc ha hb haddr
  have hnat : addr.toNat = s.pc.toNat + 3 := haddr ▸ toNat_pc_add (by omega)
  have hfits : Fits (.wmem a b) s := show s.pc.toNat + 2 ≤ 32767 by omega
  have e := exec_wmem_of_resolves hfits ha hb
  rw [if_pos (by omega), ← haddr] at e
  have hread := Memory.readWord_writeWord_same (n := addr.toNat) (by omega) v hmem
  obtain ⟨t, ht⟩ : ∃ t, t = { s with mem := s.mem.writeWord addr.toNat v, pc := addr } := ⟨_, rfl⟩
  have htrun : t.runstate = .running := ht ▸ hrun
  have htpc : t.pc = addr := ht ▸ rfl
  have hin : t.pc.toNat ≤ 32767 := by
    rw [htpc]
    omega
  have hword : t.mem.readWord t.pc.toNat = v := ht ▸ hread
  refine ⟨t, ht ▸ e, htpc, ?_, fun hop => ?_, fun hop => ?_⟩
  · exact congrArg some ((wordAt_eq_readWord hin t.mem).trans hword)
  · have hstep := malformedOpcodeFaults.1 t htrun hin (hword ▸ hop)
    rwa [hword] at hstep
  · exact (step_of_formatN (i := .noop) rfl htrun hin (hword.trans hop)).trans (noopOnlyAdvancesPc t)

end Sys2Proof.Machine
end

section
/-! `in` (R171, 49_io.md): what is left of the input chooses between its completion and the stall. -/

namespace Sys2Proof.Machine

open Sys2Proof.Spec

variable {a : Word} {r : Reg} {s : State}

theorem zext16_eq_ofNat (b : Byte) : zext16 b = BitVec.ofNat 16 b.toNat := by
  apply BitVec.eq_of_toNat_eq
  simp [zext16, BitVec.toNat_setWidth]

/-- Format `R` (R61, 30_encoding.md), whichever instruction has it. -/
theorem wf_of_formatR_resolves {i : Instr} (hops : i.operands = [(.reg, a)]) (ha : resolveRegisterIndex a = some r) :
    i.wf = true := by
  simp [Instr.wf, hops, legal_reg_of_resolves ha]

/-- Settles O37: the buffer gives the first byte of what is left, or the `in` stalls. -/
theorem inReadsNextByte : Obligations.InReadsNextByte := by
  intro a s hfits
  refine ⟨fun r ha => ?_, faultsOnIllegalOperand_of_fits hfits⟩
  obtain ⟨t, hends, e⟩ := exec_ends_of_fits hfits (wf_of_formatR_resolves rfl ha)
  cases hends with
  | in_ ha' hnext =>
    cases ha.symm.trans ha'
    have hrem := remainder_of_next? hnext
    refine ⟨fun b bs hbs => ?_, fun hnone => ?_⟩
    · cases hrem.symm.trans hbs
      exact ⟨_, rfl, by rw [e, zext16_eq_ofNat]⟩
    · cases hrem.symm.trans hnone
  | inStalled _ hnext =>
    have hrem := (next?_none_iff _).1 hnext
    refine ⟨fun b bs hbs => ?_, fun _ => e⟩
    cases hrem.symm.trans hbs

end Sys2Proof.Machine
end

section
/-! What an instruction leaves unchanged (10_state.md, sections 1, 4 and 7; 20_memory.md, sections 1 and 6): one lemma per
piece of state, over the ways an instruction ends. -/

namespace Sys2Proof.Machine

open Sys2Proof.Spec

variable {i : Instr} {s t : State} {a v w : Word} {r : Reg}

theorem regs_of_ends (h : Ends i s t) : t.regs = s.regs ∨
    ∃ a r v, destination i = some a ∧ resolveRegisterIndex a = some r ∧ t.regs = s.regs.set r v := by
  cases h with
  | set ha | pop ha | eq ha | gt ha | add ha | mult ha | mod ha | and ha | or ha | not ha | rmem ha | in_ ha =>
    exact .inr ⟨_, _, _, rfl, ha, rfl⟩
  | _ => exact .inl rfl

theorem mem_of_ends (h : Ends i s t) : t.mem = s.mem ∨
    ∃ a b addr v, i = .wmem a b ∧ resolveValue a s = some addr ∧ t.mem = s.mem.writeWord addr.toNat v := by
  cases h with
  | wmem ha => exact .inr ⟨_, _, _, _, rfl, ha, rfl⟩
  | _ => exact .inl rfl

theorem stack_of_ends (h : Ends i s t) : t.stack = s.stack ∨
    ((∃ a, i = .push a ∨ i = .call a) ∧ ∃ v, t.stack = v :: s.stack) ∨
    ((i = .ret ∨ ∃ a, i = .pop a) ∧ ∃ v, s.stack = v :: t.stack) := by
  cases h with
  | push => exact .inr (.inl ⟨⟨_, .inl rfl⟩, _, rfl⟩)
  | call => exact .inr (.inl ⟨⟨_, .inr rfl⟩, _, rfl⟩)
  | pop _ hstack => exact .inr (.inr ⟨.inr ⟨_, rfl⟩, _, hstack⟩)
  | ret hstack => exact .inr (.inr ⟨.inl rfl, _, hstack⟩)
  | _ => exact .inl rfl

theorem output_of_ends (h : Ends i s t) :
    t.output = s.output ∨ ((∃ a, i = .out a) ∧ ∃ b, t.output = s.output ++ [b]) := by
  cases h with
  | out => exact .inr ⟨⟨_, rfl⟩, _, rfl⟩
  | _ => exact .inl rfl

theorem console_of_ends (h : Ends i s t) :
    t.console = s.console ∨ ((∃ a, i = .in_ a) ∧ ∃ b, s.console.remainder = b :: t.console.remainder) := by
  cases h with
  | in_ _ hnext => exact .inr ⟨⟨_, rfl⟩, _, remainder_of_next? hnext⟩
  | _ => exact .inl rfl

/-- Settles O44: a fault changes no register, an end writes the destination's at most. -/
theorem onlyDestinationRegisterChanges : Obligations.OnlyDestinationRegisterChanges := by
  intro i s t r he hother
  rcases exec_next he with ⟨p, -, rfl⟩ | ⟨-, hends⟩
  · rfl
  · rcases regs_of_ends hends with h | ⟨a, r', v, hdest, ha, h⟩
    · exact congrArg (·.get r) h
    · have hne : r ≠ r' := fun heq => hother a hdest (heq ▸ ha)
      exact (congrArg (·.get r) h).trans (reg_setReg_ne s r' r v hne)

/-- Settles O45: a word write changes its own two cells only. -/
theorem onlyWmemChangesMemory : Obligations.OnlyWmemChangesMemory := by
  intro i s t he
  have hmem : t.mem = s.mem ∨
      ∃ a b addr v, i = .wmem a b ∧ resolveValue a s = some addr ∧ t.mem = s.mem.writeWord addr.toNat v := by
    rcases exec_next he with ⟨p, -, rfl⟩ | ⟨-, hends⟩
    · exact .inl rfl
    · exact mem_of_ends hends
  rcases hmem with h | ⟨a, b, addr, v, rfl, ha, h⟩
  · exact ⟨fun _ _ _ => ⟨fun _ _ _ _ _ => by rw [h], fun _ => h⟩, fun _ => h⟩
  · refine ⟨fun a' b' hi => ?_, fun hother => absurd rfl (hother a b)⟩
    cases hi
    refine ⟨fun addr' ha' k hlow hhigh => ?_, fun hnone => ?_⟩
    · cases ha.symm.trans ha'
      rw [h, Memory.readByte_writeWord_ne hlow hhigh]
    · cases ha.symm.trans hnone

/-- Settles O46: a fault changes no stack word, the ends are those of `stack_of_ends`. -/
theorem onlyStackInstructionsChangeStack : Obligations.OnlyStackInstructionsChangeStack := by
  intro i s t he
  rcases exec_next he with ⟨p, -, rfl⟩ | ⟨-, hends⟩
  · exact .inl rfl
  · exact stack_of_ends hends

/-- Settles O47: a fault touches neither, and an end at most one of them by one byte. -/
theorem onlyConsoleInstructionsTouchConsole : Obligations.OnlyConsoleInstructionsTouchConsole := by
  intro i s t he
  rcases exec_next he with ⟨p, -, rfl⟩ | ⟨-, hends⟩
  · exact ⟨.inl rfl, .inl rfl⟩
  · exact ⟨output_of_ends hends, console_of_ends hends⟩

/-- Settles O48: each end names its `pc`; those that fault are shut out. -/
theorem pcAfterInstruction : Obligations.PcAfterInstruction := by
  intro i s t _ _ he hok
  rcases exec_next he with ⟨p, -, rfl⟩ | ⟨-, hends⟩
  · exact absurd rfl hok
  · cases hends with
    | pushFull | popEmpty | modZero | rmemBeyond | wmemBeyond | callFull | retEmpty => exact absurd rfl hok
    | jmp ha => exact ha
    | call ha => exact ⟨ha, rfl⟩
    | ret hstack => exact hstack
    | jt ha hb =>
      simp only [ha, Option.some.injEq]
      split
      · rfl
      · exact hb
    | jf ha hb =>
      simp only [ha, Option.some.injEq]
      split
      · exact hb
      · rfl
    | in_ _ hnext => exact (if_neg (by simp [remainder_of_next? hnext])).symm
    | inStalled _ hnext => exact (if_pos ((next?_none_iff _).1 hnext)).symm
    | _ => rfl

/-! ## Results of fifteen bits (10_state.md, section 1) -/

theorem truthWord_le (p : Bool) : (truthWord p).toNat ≤ 32767 := by
  cases p <;> decide

theorem ofNat_mod_le (n : Nat) : (BitVec.ofNat 16 (n % 32768)).toNat ≤ 32767 := by
  rw [BitVec.toNat_ofNat]
  omega

theorem and_mask15_le (v : Word) : (v &&& Config.mask15).toNat ≤ 32767 := by
  rw [BitVec.toNat_and]
  exact Nat.and_le_right

/-- A register just written holds at most what was written. -/
theorem reg_set_le (hv : v.toNat ≤ 32767) :
    (({ s with regs := s.regs.set r v, pc := w } : State).reg r).toNat ≤ 32767 := by
  have hreg : ({ s with regs := s.regs.set r v, pc := w } : State).reg r = v := reg_setReg_same s r v
  rwa [hreg]

theorem result_le_of_ends (h : Ends i s t) (ha : resolveRegisterIndex a = some r)
    (hi : (∃ b c, i = .eq a b c ∨ i = .gt a b c ∨ i = .add a b c ∨ i = .mult a b c ∨ i = .and a b c ∨ i = .or a b c) ∨
      ∃ b, i = .not a b) : (t.reg r).toNat ≤ 32767 := by
  rcases hi with ⟨b, c, rfl | rfl | rfl | rfl | rfl | rfl⟩ | ⟨b, rfl⟩
  · cases h with | eq ha' => cases ha.symm.trans ha'; exact reg_set_le (truthWord_le _)
  · cases h with | gt ha' => cases ha.symm.trans ha'; exact reg_set_le (truthWord_le _)
  · cases h with | add ha' => cases ha.symm.trans ha'; exact reg_set_le (ofNat_mod_le _)
  · cases h with | mult ha' => cases ha.symm.trans ha'; exact reg_set_le (ofNat_mod_le _)
  · cases h with | and ha' => cases ha.symm.trans ha'; exact reg_set_le (and_mask15_le _)
  · cases h with | or ha' => cases ha.symm.trans ha'; exact reg_set_le (and_mask15_le _)
  · cases h with | not ha' => cases ha.symm.trans ha'; exact reg_set_le (and_mask15_le _)

/-- Settles O49: the seven results are truth words, residues modulo 32768, or masked. -/
theorem computedResultsAreFifteenBit : Obligations.ComputedResultsAreFifteenBit := by
  intro i s t a r _ he hok hi ha
  rcases exec_next he with ⟨p, -, rfl⟩ | ⟨-, hends⟩
  · cases hok
  · exact result_le_of_ends hends ha hi

end Sys2Proof.Machine
end

section
/-! The ports beside the step (R24, 10_state.md), and their codes (R17, R193). -/

namespace Sys2Proof.Machine

open Sys2Proof.Spec

variable {i : Instr} {s t : State} {a w pc : Word}

/-- What the step does, as far as the ports show it: the current instruction executes, or no byte moves. -/
theorem exec_current_of_step (hstep : step s = .next t) :
    (∃ i, currentInstr s = some i ∧ exec i s = .next t) ∨
      (currentInstr s = none ∧ t.output = s.output ∧ t.console = s.console) := by
  by_cases hrun : s.runstate = .running
  · rcases step_running hrun with ⟨i, -, -, hcur, e⟩ | ⟨hcur, u, hfetch, e⟩
    · exact .inl ⟨i, hcur, e ▸ hstep⟩
    · cases e.symm.trans hstep
      cases hfetch <;> exact .inr ⟨hcur, rfl, rfl⟩
  · cases (step_of_not_running hrun).symm.trans hstep
    exact .inr ⟨currentInstr_of_not_running hrun, rfl, rfl⟩

/-- A single operand passes when Memory has it and it is legal. -/
theorem operandFault_singleton_none_iff (kind : OperandKind) :
    operandFault pc 1 [(kind, w)] = none ↔ inMemory (pc + 1#16) = true ∧ kind.legal w = true := by
  rw [operandFault, inMemory_iff]
  by_cases hmem : (pc + 1#16).toNat < 32768
  · rw [if_pos hmem]
    by_cases hlegal : kind.legal w = true
    · exact iff_of_true (if_pos hlegal) ⟨hmem, hlegal⟩
    · rw [if_neg hlegal]
      exact iff_of_false nofun fun h => hlegal h.2
  · rw [if_neg hmem]
    exact iff_of_false nofun fun h => hmem h.1

theorem outPort_of_current (hcur : currentInstr s = some (.out a)) :
    outPort s = if inMemory (s.pc + 1#16) then (resolveValue a s).map lowByte else none := by
  rw [outPort, hcur]

theorem outPort_of_current_ne (hcur : ∀ a, currentInstr s ≠ some (.out a)) : outPort s = none := by
  unfold outPort
  split
  · next a h => exact absurd h (hcur a)
  · rfl

theorem inReq_of_current (hcur : currentInstr s = some (.in_ a)) :
    inReq s = true ↔ operandFault s.pc 1 [(.reg, a)] = none := by
  rw [operandFault_singleton_none_iff, legal_reg_iff, ← Option.isSome_iff_exists, ← Bool.and_eq_true, inReq, hcur]

theorem inReq_of_current_ne (hcur : ∀ a, currentInstr s ≠ some (.in_ a)) : inReq s = false := by
  unfold inReq
  split
  · next a h => exact absurd h (hcur a)
  · rfl

/-- `out` writes the byte its port shows, none when its operand faults. -/
theorem output_of_exec_out (hcur : currentInstr s = some (.out a)) (he : exec (.out a) s = .next t) :
    t.output = s.output ++ (outPort s).toList := by
  rw [outPort_of_current hcur]
  rcases exec_next he with ⟨p, hp, rfl⟩ | ⟨hnone, hends⟩
  · have hfault : ¬ (inMemory (s.pc + 1#16) = true ∧ OperandKind.legal .val a = true) := fun h => by
      cases hp.symm.trans ((operandFault_singleton_none_iff _).2 h)
    rw [legal_val_iff a s, ← Option.isSome_iff_exists] at hfault
    by_cases hmem : inMemory (s.pc + 1#16) = true
    · have hresolve : resolveValue a s = none := Option.not_isSome_iff_eq_none.1 fun h => hfault ⟨hmem, h⟩
      rw [if_pos hmem, hresolve]
      exact (List.append_nil _).symm
    · rw [if_neg hmem]
      exact (List.append_nil _).symm
  · obtain ⟨hmem, -⟩ := (operandFault_singleton_none_iff _).1 hnone
    cases hends with
    | out ha =>
      rw [if_pos hmem, ha]
      rfl

theorem output_of_step (hstep : step s = .next t) : t.output = s.output ++ (outPort s).toList := by
  rcases exec_current_of_step hstep with ⟨i, hcur, he⟩ | ⟨hcur, hout, -⟩
  · by_cases hi : ∃ a, i = .out a
    · obtain ⟨a, rfl⟩ := hi
      exact output_of_exec_out hcur he
    · have hout := ((onlyConsoleInstructionsTouchConsole i s t he).1).resolve_right fun h => hi h.1
      rw [hout, outPort_of_current_ne fun a h => hi ⟨a, Option.some.inj (hcur.symm.trans h)⟩]
      simp
  · rw [hout, outPort_of_current_ne fun a h => by cases hcur.symm.trans h]
    simp

/-- `in` takes the byte at the port exactly when its operand passes and there is one. -/
theorem remainder_of_exec_in (hcur : currentInstr s = some (.in_ a)) (he : exec (.in_ a) s = .next t) :
    t.console.remainder =
      if inReq s = true ∧ (inPort s).isSome then s.console.remainder.tail else s.console.remainder := by
  have hreq := inReq_of_current hcur
  rw [inPort_eq_head?]
  rcases exec_next he with ⟨p, hp, rfl⟩ | ⟨hnone, hends⟩
  · rw [if_neg fun h => by cases hp.symm.trans (hreq.1 h.1)]
    rfl
  · cases hends with
    | in_ _ hnext => rw [remainder_of_next? hnext, if_pos ⟨hreq.2 hnone, rfl⟩, List.tail_cons]
    | inStalled _ hnext => simp [(next?_none_iff _).1 hnext]

theorem remainder_of_step (hstep : step s = .next t) : t.console.remainder =
    if inReq s = true ∧ (inPort s).isSome then s.console.remainder.tail else s.console.remainder := by
  rcases exec_current_of_step hstep with ⟨i, hcur, he⟩ | ⟨hcur, -, hcon⟩
  · by_cases hi : ∃ a, i = .in_ a
    · obtain ⟨a, rfl⟩ := hi
      exact remainder_of_exec_in hcur he
    · have hcon := ((onlyConsoleInstructionsTouchConsole i s t he).2).resolve_right fun h => hi h.1
      rw [hcon, inReq_of_current_ne fun a h => hi ⟨a, Option.some.inj (hcur.symm.trans h)⟩]
      simp
  · rw [hcon, inReq_of_current_ne fun a h => by cases hcur.symm.trans h]
    simp

/-- Settles O59: one lemma for each of the three. -/
theorem portsShowWhatTheStepDoes : Obligations.PortsShowWhatTheStepDoes :=
  fun s _ hstep => ⟨output_of_step hstep, inPort_eq_head? s, remainder_of_step hstep⟩

theorem runState_code_inj (q q' : RunState) : q.code = q'.code ↔ q = q' := by
  cases q <;> cases q' <;> simp [RunState.code]

/-- The fault kind a code of R193 (60_exceptions.md) names. -/
def kindOfCode (code : BitVec 4) : Option Fault :=
  match code.toNat with
  | 1 => some .malformedOpcode
  | 2 => some .invalidOperand
  | 3 => some .invalidRegisterOperand
  | 4 => some .stackOverflow
  | 5 => some .stackUnderflow
  | 6 => some .divisionByZero
  | 7 => some .addressOutOfRange
  | _ => none

theorem kindOfCode_faultKindCode (k : Option Fault) : kindOfCode (faultKindCode k) = k := by
  rcases k with _ | k
  · rfl
  · cases k <;> rfl

theorem faultKindCode_inj (k k' : Option Fault) : faultKindCode k = faultKindCode k' ↔ k = k' :=
  (Function.LeftInverse.injective kindOfCode_faultKindCode).eq_iff

theorem faultKindCode_le (k : Option Fault) : (faultKindCode k).toNat ≤ 7 := by
  rcases k with _ | k
  · decide
  · cases k <;> decide

/-- Settles O60: both codes are injective, and the invariant ties the record to the run state. -/
theorem portsTellStatesAndFaultsApart : Obligations.PortsTellStatesAndFaultsApart := by
  intro s t hs
  refine ⟨?_, faultKindCode_le _, runState_code_inj _ _, faultKindCode_inj _ _, ?_⟩
  · cases hrun : s.runstate <;> simp [State.ports, RunState.code, hrun]
  · calc s.ports.faultKind = 0#4 ↔ s.faultRec.fkind = none := faultKindCode_inj _ none
      _ ↔ s.runstate ≠ .faulted := by rw [← Option.not_isSome_iff_eq_none, hs.recorded]
      _ ↔ s.ports.runState ≠ 2#2 := (runState_code_inj _ .faulted).not.symm

end Sys2Proof.Machine
end

section
/-! Reset and the image (R25, 10_state.md; R220 to R222, 70_reset_and_hazards.md). -/

namespace Sys2Proof.Machine

variable {bs : List Byte}

/-- The words of a Memory at the start of a run: the image, then zeros (R222, 70_reset_and_hazards.md). -/
theorem readWord_boot (img : Image) (lines : List (List Byte)) {n : Nat} (hn : n ≤ 32767) :
    (boot img lines).mem.readWord n = (img.words[n]?).getD 0#16 := by
  have h := Memory.readWord_writeWords img.words 0 n (m := []) rfl (by omega)
  rwa [Nat.zero_add] at h

theorem reg_reset (r : Reg) : State.reset.reg r = 0#16 := by
  simp [State.reg, State.reset, Vector.get_eq_getElem]

/-- Whatever the image, the lines and the old state, the machine starts in a legal state. -/
theorem inv_applyReset (img : Image) (lines : List (List Byte)) (s : State) : (applyReset img lines s).Inv where
  memory := Memory.wf_writeWords img.words 0 rfl
  depth := Nat.zero_le _
  recorded := iff_of_false nofun nofun
  record := rfl
  buffer := rfl

/-- Settles O4: the reset state is the one with the empty image and no line (log entry 12). -/
theorem resetMeetsInv : Obligations.ResetMeetsInv :=
  inv_applyReset ⟨[], Nat.zero_le _⟩ [] State.reset

/-- Settles O6: all but the registers are written out in `State.reset`. -/
theorem resetValues : Obligations.ResetValues :=
  ⟨rfl, rfl, rfl, reg_reset, fun _ => rfl, rfl, rfl, rfl, rfl, rfl⟩

/-- Settles O58: `applyReset` takes everything but the output from the reset state, the image and the lines. -/
theorem resetRestoresEverything : Obligations.ResetRestoresEverything := by
  intro img lines s
  exact ⟨inv_applyReset img lines s, rfl, rfl, rfl, reg_reset, rfl, rfl, rfl, rfl, rfl, rfl, rfl,
    fun n hn => readWord_boot img lines hn⟩

/-- An even number of bytes is that many words, each the two bytes at its place, low byte first (R41, 20_memory.md). -/
theorem wordsOfBytes_of_even (h : bs.length % 2 = 0) :
    ∃ ws, wordsOfBytes bs = some ws ∧ 2 * ws.length = bs.length ∧
      ∀ n, ((ws[n]?).getD 0#16).toNat = ((bs[2 * n]?).getD 0#8).toNat + 256 * ((bs[2 * n + 1]?).getD 0#8).toNat := by
  induction bs using wordsOfBytes.induct with
  | case1 => exact ⟨[], rfl, rfl, fun n => by simp⟩
  | case2 b => cases h
  | case3 lo hi bs ih =>
    simp only [List.length_cons] at h
    obtain ⟨ws, hws, hlen, hbytes⟩ := ih (by omega)
    refine ⟨_, by rw [wordsOfBytes, hws, Option.map_some], by simp only [List.length_cons]; omega, fun n => ?_⟩
    cases n with
    | zero =>
      have hlo := lo.isLt
      have hhi := hi.isLt
      simp only [List.getElem?_cons_zero, Option.getD_some, Nat.mul_zero, List.getElem?_cons_succ, BitVec.toNat_ofNat]
      omega
    | succ n => simpa [Nat.mul_add] using hbytes n

theorem wordsOfBytes_of_odd (h : bs.length % 2 = 1) : wordsOfBytes bs = none := by
  induction bs using wordsOfBytes.induct with
  | case1 => cases h
  | case2 b => rfl
  | case3 lo hi bs ih =>
    simp only [List.length_cons] at h
    rw [wordsOfBytes, ih (by omega), Option.map_none]

/-- Settles O57: the bytes give the image's words, or none, or too many; the image's words are Memory's. -/
theorem imageIsLoadedLittleEndian : Obligations.ImageIsLoadedLittleEndian := by
  intro bs
  by_cases hodd : bs.length % 2 = 1
  · exact ⟨fun _ => by rw [Image.ofBytes, wordsOfBytes_of_odd hodd], fun heven => by omega⟩
  · obtain ⟨ws, hws, hlen, hbytes⟩ := wordsOfBytes_of_even (bs := bs) (by omega)
    refine ⟨fun hrefused => ?_, fun _ hfit => ?_⟩
    · have htoo : ¬ ws.length ≤ Config.memWords := by
        rw [Config.memWords]
        omega
      simp only [Image.ofBytes, hws, dif_neg htoo]
    · have hfits : ws.length ≤ Config.memWords := by
        rw [Config.memWords]
        omega
      refine ⟨⟨ws, hfits⟩, by simp only [Image.ofBytes, hws, dif_pos hfits], fun lines n hn => ?_⟩
      rw [readWord_boot _ _ hn]
      exact hbytes n

end Sys2Proof.Machine
end

section
/-! The stack law (42_set_stack.md): pushing and popping, as sequences. -/

namespace Sys2Proof.Machine

open Sys2Proof.Spec

variable {s t u : State} {v : Word}

theorem pushAll_cons_of_room (vs : List Word) (h : s.stack.length ≠ 32768) :
    pushAll (v :: vs) s = pushAll vs { s with stack := v :: s.stack } := by
  rw [pushAll, push_spec, if_neg h]

theorem popAll_succ_of_stack {vs : List Word} (n : Nat) (h : t.stack = v :: vs) :
    popAll (n + 1) t = (popAll n { t with stack := vs }).map fun p => (v :: p.1, p.2) := by
  rw [popAll, pop_cons h]

/-- One more pop takes the word below those popped. -/
theorem popAll_succ_of_below {n : Nat} {us vs : List Word} (h : popAll n t = some (us, u)) (hu : u.stack = v :: vs) :
    popAll (n + 1) t = some (us ++ [v], { u with stack := vs }) := by
  induction n generalizing t us with
  | zero =>
    cases h
    rw [popAll_succ_of_stack 0 hu]
    rfl
  | succ n ih =>
    cases ht : t.stack with
    | nil =>
      rw [popAll, pop_nil ht] at h
      cases h
    | cons w ws =>
      rw [popAll_succ_of_stack n ht] at h
      obtain ⟨⟨us', u'⟩, hrest, hus⟩ := Option.map_eq_some_iff.1 h
      cases hus
      rw [popAll_succ_of_stack (n + 1) ht, ih hrest]
      rfl

theorem popAll_pushAll (vs : List Word) (s : State) (h : s.stack.length + vs.length ≤ 32768) :
    ∃ t, pushAll vs s = some t ∧ popAll vs.length t = some (vs.reverse, s) := by
  induction vs generalizing s with
  | nil => exact ⟨s, rfl, rfl⟩
  | cons v vs ih =>
    rw [List.length_cons] at h
    obtain ⟨t, hpush, hpop⟩ := ih { s with stack := v :: s.stack } (by simp only [List.length_cons]; omega)
    refine ⟨t, (pushAll_cons_of_room vs (by omega)).trans hpush, ?_⟩
    rw [List.reverse_cons]
    exact popAll_succ_of_below (u := { s with stack := v :: s.stack }) hpop rfl

/-- Settles O53: by induction on the words, the word pushed first is the last one popped. -/
theorem stackReturnsValuesInReverse : Obligations.StackReturnsValuesInReverse := by
  intro vs s h
  obtain ⟨t, hpush, hpop⟩ := popAll_pushAll vs s h
  exact ⟨t, hpush, hpop, pop_nil⟩

end Sys2Proof.Machine
end

section
/-! A run's input (R173 to R176, 49_io.md): the buffer as a plain stream, and the lines as they arrive. -/

namespace Sys2Proof.Machine

open Sys2Proof.Spec

variable {img : Image} {input : Input} {n k : Nat} {s t : State} {b : Byte} {bs l : List Byte}

theorem bytesRead_eq_take (n : Nat) (c : Console) : bytesRead n c = c.remainder.take n := by
  induction n generalizing c with
  | zero => rfl
  | succ n ih =>
    rw [bytesRead]
    cases hn : c.next? with
    | none => rw [(next?_none_iff c).1 hn]; rfl
    | some p =>
      obtain ⟨b, c'⟩ := p
      rw [remainder_of_next? hn, List.take_succ_cons, ← ih c']

/-- What is left in the console is `INPUT` from byte `k` on, up to byte `n` (R175, 49_io.md). -/
structure Holds (input : Input) (n k : Nat) (rem : List Byte) : Prop where
  length : k + rem.length = n
  byte : ∀ j, j < rem.length → rem[j]? = input.get? (k + j)

variable {rem : List Byte}

theorem holds_deliver (h : Holds input n k rem) (hl : input.isLine n l) :
    Holds input (n + l.length) k (rem ++ l) where
  length := by
    rw [List.length_append, ← Nat.add_assoc, h.length]
  byte j hj := by
    rw [List.length_append] at hj
    have hlen := h.length
    by_cases hj' : j < rem.length
    · rw [List.getElem?_append_left hj', h.byte j hj']
    · rw [List.getElem?_append_right (by omega), ← hl.2.1 _ (by omega)]
      congr 1
      omega

theorem holds_tail (h : Holds input n k (b :: rem)) : Holds input n (k + 1) rem where
  length := by
    rw [← h.length, List.length_cons]
    omega
  byte j hj := by
    have hbyte := h.byte (j + 1) (by simpa using hj)
    rwa [List.getElem?_cons_succ, Nat.add_comm j 1, ← Nat.add_assoc] at hbyte

/-- The invariant of a run: lines come at the end of what is left, and an `in` takes its first byte. -/
theorem holds_of_runs (h : Runs img input n k s) : Holds input n k s.console.remainder := by
  induction h with
  | start => exact ⟨rfl, fun j hj => absurd hj (Nat.not_lt_zero j)⟩
  | line _ hl ih =>
    rw [Console.remainder_deliver]
    exact holds_deliver ih hl
  | @step n k s t _ hstep ih =>
    have hrem := remainder_of_step hstep
    by_cases htakes : takesInput s = true
    · have hin : inReq s = true ∧ (inPort s).isSome = true := by simpa [takesInput] using htakes
      rw [if_pos hin] at hrem
      rw [inPort_eq_head?] at hin
      cases hs : s.console.remainder with
      | nil => simp [hs] at hin
      | cons b bs =>
        rw [if_pos htakes, hrem, hs]
        exact holds_tail (hs ▸ ih)
    · rw [if_neg fun hin => htakes (by simpa [takesInput] using hin)] at hrem
      rwa [if_neg htakes, hrem]

/-- Settles O54: the buffer is a plain stream, and in a run that stream is the part of `INPUT` delivered and not taken. -/
theorem bufferDeliversInputInOrder : Obligations.BufferDeliversInputInOrder := by
  refine ⟨fun n c => ⟨bytesRead_eq_take n c, next?_none_iff c⟩, fun img input n k s hruns => ?_⟩
  have hholds := holds_of_runs hruns
  have hlen := hholds.length
  refine ⟨by omega, fun j => ?_, fun htakes => ?_⟩
  · split
    · exact hholds.byte j (by omega)
    · exact List.getElem?_eq_none (by omega)
  · have hin : (inPort s).isSome = true := by
      rw [takesInput, Bool.and_eq_true] at htakes
      exact htakes.2
    rw [inPort_eq_head?, List.isSome_head?] at hin
    have hpos : 0 < s.console.remainder.length := List.length_pos_of_ne_nil (by simpa using hin)
    rw [inPort_eq_head?, List.head?_eq_getElem?]
    exact ⟨by omega, hholds.byte 0 hpos⟩

/-- Settles O55: the step is that `in`, whose two ends are R171's. -/
theorem stallLastsUntilInput : Obligations.StallLastsUntilInput := by
  intro a r s hrun hpc hop hword ha hrem
  have hfits : Fits (.in_ a) s := Nat.succ_le_succ hpc
  have hexec (u : State) (hu : u.runstate = .running) (hupc : u.pc = s.pc) (humem : u.mem = s.mem) :
      step u = exec (.in_ a) u := by
    refine stepRunsDecodedInstruction (.in_ a) u hu (by rw [hupc]; omega) fun k w hw _ => ?_
    rw [hupc, humem]
    match k, hw with
    | 0, hw => cases hw; exact hop
    | 1, hw => cases hw; exact hword
  refine ⟨run_of_step_self (M := Sys2Proof.core) ?_, fun b l => ?_⟩
  · exact (hexec s hrun rfl rfl).trans (((inReadsNextByte a s hfits).1 r ha).2 hrem)
  · have hdelivered : (deliver (b :: l) s).console.remainder = b :: l := by
      rw [Console.remainder_deliver, hrem, List.nil_append]
    obtain ⟨con, hcon, e⟩ := ((inReadsNextByte a (deliver (b :: l) s) hfits).1 r ha).1 b l hdelivered
    exact ⟨_, (hexec (deliver (b :: l) s) hrun rfl rfl).trans e, reg_setReg_same _ r _, rfl, hcon⟩

/-! ## Lines (R174, R176, 49_io.md) -/

/-- One byte more at the front is a line of its own, the last line, or the first byte of the first line. -/
theorem linesOf_cons_cases (b : Byte) (bs : List Byte) :
    (b = Config.newline ∧ linesOf (b :: bs) = [b] :: linesOf bs) ∨
      (b ≠ Config.newline ∧ linesOf bs = [] ∧ linesOf (b :: bs) = [[b]]) ∨
      (b ≠ Config.newline ∧ ∃ l ls, linesOf bs = l :: ls ∧ linesOf (b :: bs) = (b :: l) :: ls) := by
  rw [linesOf]
  by_cases hb : b = Config.newline
  · exact .inl ⟨hb, if_pos hb⟩
  · rw [if_neg hb]
    cases hls : linesOf bs with
    | nil => exact .inr (.inl ⟨hb, rfl, rfl⟩)
    | cons l ls => exact .inr (.inr ⟨hb, l, ls, rfl, rfl⟩)

theorem flatten_linesOf (bs : List Byte) : (linesOf bs).flatten = bs := by
  induction bs with
  | nil => rfl
  | cons b bs ih =>
    rcases linesOf_cons_cases b bs with ⟨-, h⟩ | ⟨-, hls, h⟩ | ⟨-, l, ls, hls, h⟩
    · rw [h, List.flatten_cons, ih, List.singleton_append]
    · rw [hls] at ih
      rw [h, ← ih]
      rfl
    · rw [hls, List.flatten_cons] at ih
      rw [h, List.flatten_cons, List.cons_append, ih]

/-- No line is empty, and none has a terminator before its last byte. -/
theorem line_of_mem (h : l ∈ linesOf bs) : l ≠ [] ∧ Config.newline ∉ l.dropLast := by
  induction bs generalizing l with
  | nil => cases h
  | cons b bs ih =>
    rcases linesOf_cons_cases b bs with ⟨-, hcons⟩ | ⟨-, -, hcons⟩ | ⟨hb, l', ls, hls, hcons⟩
    · rw [hcons] at h
      rcases List.mem_cons.1 h with rfl | h
      · exact ⟨nofun, nofun⟩
      · exact ih h
    · rw [hcons] at h
      cases List.mem_singleton.1 h
      exact ⟨nofun, nofun⟩
    · rw [hcons] at h
      rw [hls] at ih
      rcases List.mem_cons.1 h with rfl | h
      · obtain ⟨hne, hinside⟩ := ih List.mem_cons_self
        rw [List.dropLast_cons_of_ne_nil hne, List.mem_cons, not_or]
        exact ⟨nofun, hb.symm, hinside⟩
      · exact ih (List.mem_cons_of_mem _ h)

theorem mem_dropLast_cons {α : Type} {x y : α} {ys : List α} :
    x ∈ (y :: ys).dropLast ↔ ys ≠ [] ∧ (x = y ∨ x ∈ ys.dropLast) := by
  cases ys <;> simp

/-- Every line that is not the last one ends in the terminator. -/
theorem terminated_of_mem_dropLast (h : l ∈ (linesOf bs).dropLast) : l.getLast? = some Config.newline := by
  induction bs generalizing l with
  | nil => cases h
  | cons b bs ih =>
    rcases linesOf_cons_cases b bs with ⟨hb, hcons⟩ | ⟨-, -, hcons⟩ | ⟨-, l', ls, hls, hcons⟩
    · rw [hcons, mem_dropLast_cons] at h
      rcases h.2 with rfl | h
      · rw [hb]
        rfl
      · exact ih h
    · rw [hcons] at h
      cases h
    · rw [hcons, mem_dropLast_cons] at h
      obtain ⟨hne, rfl | h⟩ := h
      · obtain ⟨hl', -⟩ := line_of_mem (l := l') (hls ▸ List.mem_cons_self)
        rw [List.getLast?_cons_of_ne_nil hl']
        exact ih (by rw [hls, mem_dropLast_cons]; exact ⟨hne, .inl rfl⟩)
      · exact ih (by rw [hls, mem_dropLast_cons]; exact ⟨hne, .inr h⟩)

/-- Each line cut from a finite `INPUT` is a full line of it, where the ones before it end. -/
theorem isLine_of_linesOf {pre post : List (List Byte)} (h : linesOf bs = pre ++ l :: post) :
    (Input.finite bs).isLine pre.flatten.length l := by
  obtain ⟨hne, hinside⟩ := line_of_mem (l := l) (bs := bs) (by simp [h])
  have hbs : bs = pre.flatten ++ (l ++ post.flatten) := by
    rw [← flatten_linesOf bs, h, List.flatten_append, List.flatten_cons]
  have hget (k : Nat) : (Input.finite bs).get? (pre.flatten.length + k) = (l ++ post.flatten)[k]? := by
    rw [Input.get?, hbs, List.getElem?_append_right (by omega), Nat.add_sub_cancel_left]
  refine ⟨hne, fun k hk => (hget k).trans (List.getElem?_append_left hk), hinside, ?_⟩
  cases post with
  | nil => exact .inr ((hget _).trans (List.getElem?_eq_none (by simp)))
  | cons l' post => exact .inl (terminated_of_mem_dropLast (bs := bs) (by simp [h]))

/-- The lines of a finite `INPUT`, delivered in order before the first step. -/
theorem runs_boot {pre post : List (List Byte)} (h : linesOf bs = pre ++ post) :
    Runs img (.finite bs) pre.flatten.length 0 (boot img pre) := by
  induction pre using List.reverseRecOn generalizing post with
  | nil => exact .start
  | append_singleton pre l ih =>
    rw [List.append_assoc, List.singleton_append] at h
    have hruns := (ih h).line (isLine_of_linesOf h)
    rwa [← List.length_append, ← List.flatten_concat] at hruns

/-- Settles O56: what `linesOf` cuts, and the delivery of the lines one by one. -/
theorem linesKeepInputBytes : Obligations.LinesKeepInputBytes := by
  intro bs
  refine ⟨flatten_linesOf bs, fun l h => (line_of_mem h).1, fun l h => terminated_of_mem_dropLast h,
    fun l h => (line_of_mem h).2, fun img => ?_⟩
  have hruns := runs_boot (img := img) (bs := bs) (List.append_nil _).symm
  rwa [flatten_linesOf] at hruns

end Sys2Proof.Machine
end
